-- ==== Sys2Proof/Word.lean ====
section
/-! DEFINITION. The two word widths of the block and the layout of an IEEE-754 single-precision datum. -/

namespace Sys2Proof

/-- The width `W` of the source word, of every wide wire and of the result (00_scope.md R5, R7). -/
abbrev Word := BitVec 32

/-- The width `KW` of the exponent work field `k` (00_scope.md R5, R7). -/
abbrev Byte := BitVec 8

/-- An IEEE-754 single-precision datum: "1 sign bit, 8-bit biased exponent, 23-bit mantissa"
(20_memory.md R24, 30_encoding.md R31). -/
structure F32 where
  sign     : BitVec 1
  exponent : BitVec 8
  mantissa : BitVec 23
  deriving DecidableEq, Repr

end Sys2Proof
end

