-- ==== Sys2Proof/Syntax.lean ====
section
/-! DEFINITION. The eleven rows of spec/opcode_table.json as one inductive, with the names of rows and wires. -/

namespace Sys2Proof

/-- One constructor per row of the opcode table. An operand is the value on an input wire of the row, used
whole (30_encoding.md R33); `CONVERT value` and `MNEMONIC input` are the spec's own syntax (R37). -/
inductive Instr where
  /-- The whole operation, selected by every 32-bit word (40_convert.md R40). -/
  | convert (value : Word)
  /-- Step 1 (40_convert.md R41). -/
  | dbl (value : Word)
  /-- Step 2 (40_convert.md R42). -/
  | ztst (doubled : Word)
  /-- Step 3 (41_extract_xor.md R50). -/
  | xtr8 (doubled : Word)
  /-- Step 4, first part (41_extract_xor.md R51). -/
  | xor80 (k0 : Byte)
  /-- Step 4, second part (41_extract_xor.md R52). -/
  | shr1 (k1 : Byte)
  /-- Step 4, third part (41_extract_xor.md R53). -/
  | sub82 (k2 : Byte)
  /-- Step 5 (42_reconstruct.md R60); the one row with two input wires. -/
  | mrg8 (doubled : Word) (k3 : Byte)
  /-- Step 6 (42_reconstruct.md R61). -/
  | swap16 (w : Word)
  /-- Step 7 (42_reconstruct.md R62). -/
  | shl7 (s : Word)
  /-- Step 8 (42_reconstruct.md R63). -/
  | bitcast (x : Word)
  deriving DecidableEq, Repr

/-- The rows of the opcode table by name (30_encoding.md R38). -/
inductive Row where
  | convert | dbl | ztst | xtr8 | xor80 | shr1 | sub82 | mrg8 | swap16 | shl7 | bitcast
  deriving DecidableEq, Repr

/-- The two formats of a row: `WORD` is selected by an input word, `STAGE` is wired and selected by no bit
(30_encoding.md R38). -/
inductive RowFormat where
  | word | stage
  deriving DecidableEq, Repr

/-- The named wires of one invocation (10_state.md R11). -/
inductive WireName where
  | value | doubled | z | k0 | k1 | k2 | k3 | w | s | x | result
  deriving DecidableEq, Repr

/-- The positional fields of a source word (30_encoding.md R30). The names say where a bit goes, not what it
meant in the undocumented foreign format (R39). -/
structure SourceFields where
  /-- H, bit 31: the dead bit. -/
  h : BitVec 1
  /-- MH, bits 30:15: the kept mantissa bits. -/
  m : BitVec 16
  /-- ML, bits 14:8: the test-only bits. -/
  l : BitVec 7
  /-- S, bit 7. -/
  s : BitVec 1
  /-- E, bits 6:0. -/
  e : BitVec 7
  deriving DecidableEq, Repr

/-- The row an instruction belongs to. -/
def Instr.row : Instr → Row
  | .convert _ => .convert
  | .dbl _ => .dbl
  | .ztst _ => .ztst
  | .xtr8 _ => .xtr8
  | .xor80 _ => .xor80
  | .shr1 _ => .shr1
  | .sub82 _ => .sub82
  | .mrg8 _ _ => .mrg8
  | .swap16 _ => .swap16
  | .shl7 _ => .shl7
  | .bitcast _ => .bitcast

end Sys2Proof
end

