-- ==== Sys2Proof/WellFormed.lean ====
section
/-! DEFINITION. Which instructions are well formed, and which stage operands can occur inside an invocation. -/

namespace Sys2Proof

/-- Well-formedness checks nothing: operand widths are in the types, and "no input word is illegal, none traps,
none is reserved" (30_encoding.md R35); each stage too is "a total function of its input wire"
(41_extract_xor.md and 42_reconstruct.md, opening paragraphs). -/
def Instr.wellFormed : Instr → Bool
  | .convert _ => true
  | .dbl _ => true
  | .ztst _ => true
  | .xtr8 _ => true
  | .xor80 _ => true
  | .shr1 _ => true
  | .sub82 _ => true
  | .mrg8 _ _ => true
  | .swap16 _ => true
  | .shl7 _ => true
  | .bitcast _ => true

/-- The exponent byte that the low byte of a doubled word turns into: the closed form of 41_extract_xor.md
R54 over `doubled[7:1]`, which is `value[6:0]` (R50, in context). -/
def exponentOfDoubled (doubled : Word) : Byte :=
  ((doubled.extractLsb' 1 7).setWidth 8 ^^^ 0x40#8) + 0x7E#8

/-- Can this operand occur at this stage inside some invocation? The conditions the rules give as "in context":
`doubled` even (R41), not zero past ZTST (R42), `k0` and `k1` even (R50, R51), `k2` at most `0x7F` (R52), the
exponent byte in `0x7E` to `0xFD` (R54, R62, R65). The two excluded words of SWAP16 and SHL7 are what `doubled = 0` would
send there, which the fast path returns before (R42, R43). A stage operand outside the context is "stand-alone only"
(95_test_vectors.md section 4): it still has its effect. -/
def Instr.inContext : Instr → Bool
  | .convert _ => true
  | .dbl _ => true
  | .ztst doubled => !doubled.getLsbD 0
  | .xtr8 doubled => !doubled.getLsbD 0 && doubled != 0
  | .xor80 k0 => !k0.getLsbD 0
  | .shr1 k1 => !k1.getLsbD 0
  | .sub82 k2 => decide (k2 ≤ 0x7F#8)
  | .mrg8 doubled k3 => !doubled.getLsbD 0 && doubled != 0 && k3 == exponentOfDoubled doubled
  | .swap16 w => decide (0x7E#8 ≤ w.extractLsb' 0 8) && decide (w.extractLsb' 0 8 ≤ 0xFD#8) && w != 0x000000BE#32
  | .shl7 s => decide (0x7E#8 ≤ s.extractLsb' 16 8) && decide (s.extractLsb' 16 8 ≤ 0xFD#8) && s != 0x00BE0000#32
  | .bitcast x =>
    decide (0x7E#8 ≤ x.extractLsb' 23 8) && decide (x.extractLsb' 23 8 ≤ 0xFD#8) && x.extractLsb' 0 7 == 0

end Sys2Proof
end

