-- ==== Sys2Proof/Decode.lean ====
section
/-! DEFINITION. The opcode table as data, the decoder, and the encoder (30_encoding.md; spec/opcode_table.json). -/

namespace Sys2Proof

/-! ## The table -/

/-- The rows in the order of the opcode table, which is the order of `seq` 0 to 10 (30_encoding.md R38). -/
def Row.all : List Row :=
  [.convert, .dbl, .ztst, .xtr8, .xor80, .shr1, .sub82, .mrg8, .swap16, .shl7, .bitcast]

/-- The ten stages in their wired order (10_state.md R13). -/
def Row.wiredOrder : List Row :=
  [.dbl, .ztst, .xtr8, .xor80, .shr1, .sub82, .mrg8, .swap16, .shl7, .bitcast]

/-- The `seq` column. -/
def Row.seq : Row → Nat
  | .convert => 0
  | .dbl => 1
  | .ztst => 2
  | .xtr8 => 3
  | .xor80 => 4
  | .shr1 => 5
  | .sub82 => 6
  | .mrg8 => 7
  | .swap16 => 8
  | .shl7 => 9
  | .bitcast => 10

/-- The `format` column: CONVERT is "the only externally selectable operation" (30_encoding.md R34, R38). -/
def Row.format : Row → RowFormat
  | .convert => .word
  | .dbl | .ztst | .xtr8 | .xor80 | .shr1 | .sub82 | .mrg8 | .swap16 | .shl7 | .bitcast => .stage

/-- The `match` column: zero in every row (30_encoding.md R34, R38). -/
def Row.matchBits : Row → Word
  | .convert | .dbl | .ztst | .xtr8 | .xor80 | .shr1 | .sub82 | .mrg8 | .swap16 | .shl7 | .bitcast => 0x00000000#32

/-- The `mask` column: zero in every row (30_encoding.md R34, R38). -/
def Row.mask : Row → Word
  | .convert | .dbl | .ztst | .xtr8 | .xor80 | .shr1 | .sub82 | .mrg8 | .swap16 | .shl7 | .bitcast => 0x00000000#32

/-- The `encoding` column, most significant letters first, as runs of one letter; MRG8's
`encoding_second_input` is `Row.secondPattern`. -/
def Row.pattern : Row → List (Char × Nat)
  | .convert => [('h', 1), ('m', 16), ('l', 7), ('s', 1), ('e', 7)]
  | .dbl => [('c', 1), ('a', 31)]
  | .ztst => [('d', 32)]
  | .xtr8 => [('u', 24), ('k', 8)]
  | .xor80 => [('t', 1), ('r', 7)]
  | .shr1 => [('r', 7), ('o', 1)]
  | .sub82 => [('n', 8)]
  | .mrg8 => [('u', 24), ('x', 8)]
  | .swap16 => [('p', 16), ('q', 16)]
  | .shl7 => [('o', 7), ('a', 25)]
  | .bitcast => [('n', 1), ('b', 8), ('f', 23)]

/-- The `encoding_second_input` column: the pattern of `k3` at MRG8, empty elsewhere (30_encoding.md R38). -/
def Row.secondPattern : Row → List (Char × Nat)
  | .mrg8 => [('k', 8)]
  | .convert | .dbl | .ztst | .xtr8 | .xor80 | .shr1 | .sub82 | .swap16 | .shl7 | .bitcast => []

/-- How many bits a list of letter runs has. -/
def patternWidth : List (Char × Nat) → Nat
  | [] => 0
  | run :: rest => run.2 + patternWidth rest

/-- How many bits a row's operands have together. -/
def Row.width (r : Row) : Nat := patternWidth r.pattern + patternWidth r.secondPattern

/-- The `in` column. -/
def Row.ins : Row → List WireName
  | .convert => [.value]
  | .dbl => [.value]
  | .ztst => [.doubled]
  | .xtr8 => [.doubled]
  | .xor80 => [.k0]
  | .shr1 => [.k1]
  | .sub82 => [.k2]
  | .mrg8 => [.doubled, .k3]
  | .swap16 => [.w]
  | .shl7 => [.s]
  | .bitcast => [.x]

/-- The `out` column ("result when z" at ZTST). -/
def Row.outs : Row → List WireName
  | .convert => [.result]
  | .dbl => [.doubled]
  | .ztst => [.z, .result]
  | .xtr8 => [.k0]
  | .xor80 => [.k1]
  | .shr1 => [.k2]
  | .sub82 => [.k3]
  | .mrg8 => [.w]
  | .swap16 => [.s]
  | .shl7 => [.x]
  | .bitcast => [.result]

/-- Does an input word select this row? Only a `WORD` row is selected by bits (30_encoding.md R34, R38). -/
def Row.selects (r : Row) (word : Word) : Bool :=
  r.format == .word && (word &&& r.mask) == r.matchBits

/-! ## The fields of a source word (30_encoding.md R30) -/

/-- Cut a source word into its fields. -/
def SourceFields.ofWord (value : Word) : SourceFields where
  h := value.extractLsb' 31 1
  m := value.extractLsb' 15 16
  l := value.extractLsb' 8 7
  s := value.extractLsb' 7 1
  e := value.extractLsb' 0 7

/-- Put the fields together in the order of the pattern `hmmmmmmmmmmmmmmmmlllllllseeeeeee`. -/
def SourceFields.toWord (f : SourceFields) : Word := f.h ++ f.m ++ f.l ++ f.s ++ f.e

/-! ## Decoding -/

/-- A bit string together with the row it is an operand of. For the `WORD` row the bits are the input word; a
`STAGE` row is selected by no bit, so its name stands beside the bits of its input wires (30_encoding.md R38). -/
structure RowWord where
  row   : Row
  nbits : Nat
  bits  : Nat
  deriving DecidableEq, Repr

/-- Why a bit string is no operand of a row. No 32-bit input word is ever rejected (30_encoding.md R34, R35). -/
inductive DecodeReject where
  /-- The string does not have the row's width: "the input is always exactly 32 bits" (30_encoding.md R36). -/
  | wrongWidth (row : Row) (nbits : Nat)
  /-- The number has bits above the width it is given with. -/
  | bitsAboveWidth (nbits : Nat)
  deriving DecidableEq, Repr

/-- An input word is CONVERT of that word, whatever it is (30_encoding.md R34). -/
def decode (word : Word) : Instr := .convert word

/-- The instruction of a row whose operand bits are `bits`: the first input wire in the low bits, MRG8's second
input wire above it (log 7). -/
def instrOfBits (r : Row) (bits : Nat) : Instr :=
  match r with
  | .convert => decode (BitVec.ofNat 32 bits)
  | .dbl => .dbl (BitVec.ofNat 32 bits)
  | .ztst => .ztst (BitVec.ofNat 32 bits)
  | .xtr8 => .xtr8 (BitVec.ofNat 32 bits)
  | .xor80 => .xor80 (BitVec.ofNat 8 bits)
  | .shr1 => .shr1 (BitVec.ofNat 8 bits)
  | .sub82 => .sub82 (BitVec.ofNat 8 bits)
  | .mrg8 => .mrg8 (BitVec.ofNat 32 bits) (BitVec.ofNat 8 (bits / 2 ^ 32))
  | .swap16 => .swap16 (BitVec.ofNat 32 bits)
  | .shl7 => .shl7 (BitVec.ofNat 32 bits)
  | .bitcast => .bitcast (BitVec.ofNat 32 bits)

/-- Decode the operand bits of a row, rejecting by name what is not of the row's width. -/
def decodeRow (rw : RowWord) : Except DecodeReject Instr :=
  if rw.nbits = rw.row.width then
    if rw.bits < 2 ^ rw.nbits then .ok (instrOfBits rw.row rw.bits) else .error (.bitsAboveWidth rw.nbits)
  else .error (.wrongWidth rw.row rw.nbits)

/-- Decode a bit string presented to the block: "a decoder of input words needs only the `WORD` row"
(30_encoding.md R38). -/
def decodeBits (nbits bits : Nat) : Except DecodeReject Instr :=
  decodeRow (RowWord.mk .convert nbits bits)

/-- The 32-bit word whose low `nbits` bits are those of `w` and whose other bits are zero. -/
def wordOfTableBits (nbits w : Nat) : Word := BitVec.ofNat 32 (w % 2 ^ nbits)

/-- The host's question about an opcode-table row: what does the decoder read from these bits, with zeros above
them? Every 32-bit word, the rows of the stages included, is read as CONVERT (30_encoding.md R34; log 5). -/
def decodeTableWord (nbits w : Nat) : Option Instr :=
  if nbits ≤ 32 then
    match decodeBits 32 (wordOfTableBits nbits w).toNat with
    | .ok i => some i
    | .error _ => none
  else none

/-! ## Encoding -/

/-- The row and operand bits of an instruction. CONVERT's word is laid out field by field from its pattern
(30_encoding.md R30); a stage's bits are those of its input wires. -/
def encode : Instr → RowWord
  | .convert value => RowWord.mk .convert 32 (SourceFields.ofWord value).toWord.toNat
  | .dbl value => RowWord.mk .dbl 32 value.toNat
  | .ztst doubled => RowWord.mk .ztst 32 doubled.toNat
  | .xtr8 doubled => RowWord.mk .xtr8 32 doubled.toNat
  | .xor80 k0 => RowWord.mk .xor80 8 k0.toNat
  | .shr1 k1 => RowWord.mk .shr1 8 k1.toNat
  | .sub82 k2 => RowWord.mk .sub82 8 k2.toNat
  | .mrg8 doubled k3 => RowWord.mk .mrg8 40 (k3 ++ doubled).toNat
  | .swap16 w => RowWord.mk .swap16 32 w.toNat
  | .shl7 s => RowWord.mk .shl7 32 s.toNat
  | .bitcast x => RowWord.mk .bitcast 32 x.toNat

end Sys2Proof
end

