-- ==== Sys2Proof/Machine/Operands.lean ====
section
/-! DEFINITION. The wired constants (30_encoding.md R33, 00_scope.md R5) and the two views of a result word
(00_scope.md R8). The literals are kept exactly as the spec prints them; it calls them unaudited (91_not_in_source.md N15; log 12). -/

namespace Sys2Proof.Machine

/-- `K_XOR`, wired into XOR80. -/
def kXor : Byte := 0x80#8

/-- `K_SHR`, the count of SHR1. -/
def kShr : Nat := 1

/-- `K_SUB`, wired into SUB82. -/
def kSub : Byte := 0x82#8

/-- The bits of `doubled` that MRG8 keeps: the complement of `LOWMASK`. -/
def keepMask : Word := 0xFFFFFF00#32

/-- `SWAPW`, the distance of SWAP16. -/
def swapDistance : Nat := 16

/-- `FINSH`, the count of SHL7. -/
def finalShift : Nat := 7

/-- The comparand of ZTST and the pattern it returns: positive zero. -/
def zeroPattern : Word := 0x00000000#32

/-- `bitcast_f32(x)`: "the IEEE-754 single-precision datum whose 32-bit pattern is `x`; no numeric conversion"
(00_scope.md R8), bit 31 the sign, bits 30:23 the exponent, bits 22:0 the mantissa (20_memory.md R24). -/
def bitcastF32 (x : Word) : F32 where
  sign := x.extractLsb' 31 1
  exponent := x.extractLsb' 23 8
  mantissa := x.extractLsb' 0 23

/-- `bits_u32(f)`: the 32-bit pattern of a datum (00_scope.md R8). -/
def bitsU32 (f : F32) : Word := f.sign ++ f.exponent ++ f.mantissa

end Sys2Proof.Machine
end

