-- ==== Sys2Proof/Config.lean ====
section
/-! DEFINITION. What an implementation of the block fixes. The conversion takes no configuration (00_scope.md R6):
the wired constants are in Machine/Operands.lean, and the spec leaves no value of the conversion free. -/

namespace Sys2Proof

/-- `LATENCY_CYCLES`, "the only open parameter of the spec; its value for this spec's block is 0"
(70_reset_and_hazards.md R88). No rule and no definition of the model reads it. -/
def Config.latencyCycles : Nat := 0

end Sys2Proof
end

