-- ==== Sys2Proof/Machine/State.lean ====
section
/-! DEFINITION. The state: the block's own, which is the unit type, beside the word on its input port; the wires; faults and
refusals; the machine after reset. -/

namespace Sys2Proof.Machine

/-- The wires between the stages of one invocation (10_state.md R11): no registers, "a function of `value_i` at all times, never
a held value" (R20). `none` is a wire that no stage drives: the dash of 95_test_vectors.md section 4.1, "stages XTR8 to BITCAST
contribute nothing" when `z` is true (40_convert.md R42; log 3). -/
structure Wires where
  doubled : Option Word
  z       : Option Bool
  k0      : Option Byte
  k1      : Option Byte
  k2      : Option Byte
  k3      : Option Byte
  w       : Option Word
  s       : Option Word
  x       : Option Word
  deriving DecidableEq, Repr

/-- Nothing driven yet. -/
def Wires.idle : Wires where
  doubled := none
  z := none
  k0 := none
  k1 := none
  k2 := none
  k3 := none
  w := none
  s := none
  x := none

/-- What a stage evaluated on its own puts out: each is "a total function of its input wire, so that a model can define and test
it alone" (41_extract_xor.md, opening paragraph; 42_reconstruct.md's says the same of its own). No part of the
block: a host can neither evaluate a stage nor read a wire (30_encoding.md R37, 70_reset_and_hazards.md R89; log 6). -/
structure Bench where
  wires  : Wires
  /-- The wire `result`. -/
  result : Option Word
  deriving DecidableEq, Repr

/-- No stage is being evaluated on its own. -/
def Bench.idle : Bench where
  wires := Wires.idle
  result := none

/-- The state of the block: "the machine state type is the unit type" (10_state.md R10); no register, pc, flag, mode, memory or
exception record (R12 to R18). -/
abbrev BlockState := Unit

/-- What the host's interface calls the state: the block's own, which is nothing, beside what the environment puts to it
(log 1). `result_o` and the wires of the invocation are no fields: they are functions of `value_i` at all times, never held values
(10_state.md R19, R20), `State.result_o` and `State.wires` in Machine/Convert.lean. -/
structure State where
  block   : BlockState
  /-- The input port, the wire `value`: the word the host presents (R11, R19). -/
  value_i : Word
  /-- A stage evaluated on its own, beside the block (log 6). -/
  bench   : Bench
  deriving DecidableEq, Repr

/-- The reasons to stop with a fault: there are none. "The set of synchronous exceptions is empty"
(60_exceptions.md R70), "a model's step for the block has one outcome constructor" (R73). Safe: nothing raises one, and the
type says so (log 8). -/
inductive Fault where
  deriving DecidableEq, Repr

/-- The reasons to refuse an instruction. The block refuses nothing (60_exceptions.md R70, R73). -/
inductive Refusal where
  /-- The host interface's name for an instruction without a meaning. Safe. No arm of `exec` raises it: every row has its
  meaning (log 8). -/
  | notModelled (mnemonic : String)
  deriving DecidableEq, Repr

/-- What a meaning answers. -/
abbrev Result := Host.Outcome State Fault Refusal

/-- The machine after reset. "The block has no state, so reset has nothing to set", and `result_o` equals `CONVERT(value_i)`
"before, during and after any system reset" (70_reset_and_hazards.md R82), as it does in every state here. DESIGN CHOICE, unsafe
(log 2): the word the host drives on `value_i` at reset, of which the spec says nothing, is zero. -/
def State.reset : State where
  block := ()
  value_i := 0x00000000#32
  bench := Bench.idle

end Sys2Proof.Machine
end

