-- ==== Sys2Proof/Machine/Ops.lean ====
section
/-! DEFINITION. The named operations over the input port and the bench. The block has no registers and no memory to operate on
(10_state.md R12, 20_memory.md R21), and no exception to take or to return from (60_exceptions.md R70, R73, R74). -/

namespace Sys2Proof.Machine

/-- The host presents a word on `value_i` (70_reset_and_hazards.md R89): all 32 bits at once, by copy (20_memory.md R26; log 13).
Nothing of an earlier word or of a stage evaluated on its own is left (R84). -/
def State.present (value : Word) (st : State) : State := { st with value_i := value, bench := Bench.idle }

/-- A stage is evaluated on its own: the bench shows what it puts out, and nothing else; the block is not touched (log 6). -/
def State.setBench (b : Bench) (st : State) : State := { st with bench := b }

/-! Each wire has one operation that drives it; each is assigned by one stage (10_state.md R11). -/

def Bench.driveDoubled (v : Word) (b : Bench) : Bench := { b with wires := { b.wires with doubled := some v } }

def Bench.driveZ (v : Bool) (b : Bench) : Bench := { b with wires := { b.wires with z := some v } }

def Bench.driveK0 (v : Byte) (b : Bench) : Bench := { b with wires := { b.wires with k0 := some v } }

def Bench.driveK1 (v : Byte) (b : Bench) : Bench := { b with wires := { b.wires with k1 := some v } }

def Bench.driveK2 (v : Byte) (b : Bench) : Bench := { b with wires := { b.wires with k2 := some v } }

def Bench.driveK3 (v : Byte) (b : Bench) : Bench := { b with wires := { b.wires with k3 := some v } }

def Bench.driveW (v : Word) (b : Bench) : Bench := { b with wires := { b.wires with w := some v } }

def Bench.driveS (v : Word) (b : Bench) : Bench := { b with wires := { b.wires with s := some v } }

def Bench.driveX (v : Word) (b : Bench) : Bench := { b with wires := { b.wires with x := some v } }

/-- The wire `result` is the one that two stages drive, BITCAST and, when `z` is true, ZTST (10_state.md R11). -/
def Bench.driveResult (v : Word) (b : Bench) : Bench := { b with result := some v }

/-- Wires driven by one stage beside the wires driven before it. -/
def Wires.merge (before new : Wires) : Wires where
  doubled := new.doubled.or before.doubled
  z := new.z.or before.z
  k0 := new.k0.or before.k0
  k1 := new.k1.or before.k1
  k2 := new.k2.or before.k2
  k3 := new.k3.or before.k3
  w := new.w.or before.w
  s := new.s.or before.s
  x := new.x.or before.x

def Bench.merge (before new : Bench) : Bench where
  wires := before.wires.merge new.wires
  result := new.result.or before.result

/-- What the bench shows on a wire as a number, by the wire's name; `none` where nothing drives it. `value` is the block's input
port, which no stage drives. For statements about which wires a row drives. -/
def Bench.read (n : WireName) (b : Bench) : Option Nat :=
  match n with
  | .value => none
  | .doubled => b.wires.doubled.map BitVec.toNat
  | .z => b.wires.z.map Bool.toNat
  | .k0 => b.wires.k0.map BitVec.toNat
  | .k1 => b.wires.k1.map BitVec.toNat
  | .k2 => b.wires.k2.map BitVec.toNat
  | .k3 => b.wires.k3.map BitVec.toNat
  | .w => b.wires.w.map BitVec.toNat
  | .s => b.wires.s.map BitVec.toNat
  | .x => b.wires.x.map BitVec.toNat
  | .result => b.result.map BitVec.toNat

end Sys2Proof.Machine
end

