-- ==== Sys2Proof/Machine/ExtractXor.lean ====
section
/-! DEFINITION. The bit-field extractor and XOR transform, steps 3 and 4: XTR8, XOR80, SHR1, SUB82
(41_extract_xor.md R50 to R53). Every operation from here to SUB82 is an 8-bit operation (R50, R55). -/

namespace Sys2Proof.Machine

/-- `doubled[7:0]` (41_extract_xor.md R50). -/
def xtr8 (doubled : Word) : Byte := doubled.setWidth 8

/-- `k0 xor 0x80` (41_extract_xor.md R51). -/
def xor80 (k0 : Byte) : Byte := k0 ^^^ kXor

/-- `k1 >>8 1`, logical: a zero enters at bit 7 (41_extract_xor.md R52). -/
def shr1 (k1 : Byte) : Byte := k1 >>> kShr

/-- `k2 -8 0x82`, the borrow dropped, no clamp (41_extract_xor.md R53). -/
def sub82 (k2 : Byte) : Byte := k2 - kSub

/-- XTR8 (41_extract_xor.md R50). -/
def execXtr8 (doubled : Word) (st : State) : Result := .next (st.setBench (Bench.idle.driveK0 (xtr8 doubled)))

/-- XOR80 (41_extract_xor.md R51). -/
def execXor80 (k0 : Byte) (st : State) : Result := .next (st.setBench (Bench.idle.driveK1 (xor80 k0)))

/-- SHR1 (41_extract_xor.md R52). -/
def execShr1 (k1 : Byte) (st : State) : Result := .next (st.setBench (Bench.idle.driveK2 (shr1 k1)))

/-- SUB82 (41_extract_xor.md R53). -/
def execSub82 (k2 : Byte) (st : State) : Result := .next (st.setBench (Bench.idle.driveK3 (sub82 k2)))

end Sys2Proof.Machine
end

