-- ==== Sys2Proof/Machine/Flags.lean ====
section
/-! DEFINITION. Conditions. The block has no flag, and no stage writes a status bit (10_state.md R14); the one condition is the
outcome of the zero test, a wire of the invocation. -/

namespace Sys2Proof.Machine

/-- "All 32 bits compared": is the doubled word zero? (40_convert.md R42) -/
def zeroTest (doubled : Word) : Bool := doubled == zeroPattern

end Sys2Proof.Machine
end

