-- ==== Sys2Proof/Machine/FrontEnd.lean ====
section
/-! DEFINITION. The front end, steps 1 and 2: DBL and ZTST (40_convert.md R41, R42). -/

namespace Sys2Proof.Machine

/-- `value +32 value`, the carry out of bit 31 lost (40_convert.md R41). -/
def dbl (value : Word) : Word := value + value

/-- DBL (40_convert.md R41). -/
def execDbl (value : Word) (st : State) : Result := .next (st.setBench (Bench.idle.driveDoubled (dbl value)))

/-- ZTST: drive `z`; when it is true the result is the zero pattern (40_convert.md R42). -/
def execZtst (doubled : Word) (st : State) : Result :=
  if zeroTest doubled then .next (st.setBench ((Bench.idle.driveZ true).driveResult zeroPattern))
  else .next (st.setBench (Bench.idle.driveZ false))

end Sys2Proof.Machine
end

