-- ==== Sys2Proof/Machine/Reconstruct.lean ====
section
/-! DEFINITION. The IEEE-754 sign, exponent and mantissa reconstructor, steps 5 to 8: MRG8, SWAP16, SHL7, BITCAST
(42_reconstruct.md R60 to R63). -/

namespace Sys2Proof.Machine

/-- `(doubled and 0xFFFFFF00) or zext_32(k3)` (42_reconstruct.md R60). -/
def mrg8 (doubled : Word) (k3 : Byte) : Word := (doubled &&& keepMask) ||| k3.setWidth 32

/-- `(w <<32 16) or (w >>32 16)`, both shifts 32-bit and the right one logical (42_reconstruct.md R61). -/
def swap16 (w : Word) : Word := (w <<< swapDistance) ||| (w >>> swapDistance)

/-- `s <<32 7`, a shift and not a rotate (42_reconstruct.md R62). -/
def shl7 (s : Word) : Word := s <<< finalShift

/-- The pattern on `result_o` of the datum that step 8 returns: `bits_u32(bitcast_f32(x))` (42_reconstruct.md R63). -/
def bitcast (x : Word) : Word := bitsU32 (bitcastF32 x)

/-- MRG8 (42_reconstruct.md R60). -/
def execMrg8 (doubled : Word) (k3 : Byte) (st : State) : Result := .next (st.setBench (Bench.idle.driveW (mrg8 doubled k3)))

/-- SWAP16 (42_reconstruct.md R61). -/
def execSwap16 (w : Word) (st : State) : Result := .next (st.setBench (Bench.idle.driveS (swap16 w)))

/-- SHL7 (42_reconstruct.md R62). -/
def execShl7 (s : Word) (st : State) : Result := .next (st.setBench (Bench.idle.driveX (shl7 s)))

/-- BITCAST (42_reconstruct.md R63). -/
def execBitcast (x : Word) (st : State) : Result := .next (st.setBench (Bench.idle.driveResult (bitcast x)))

end Sys2Proof.Machine
end

