-- ==== Sys2Proof/Machine/Convert.lean ====
section
/-! DEFINITION. CONVERT, the one operation of the block (40_convert.md R40). -/

namespace Sys2Proof.Machine

/-- The wires and the result of one invocation, line by line as 40_convert.md R40 writes it. A function of the input word alone
(R44). When `z` is true the result is the zero pattern and the later stages contribute nothing (R42; log 3). -/
def invocation (value : Word) : Wires × Word :=
  let doubled := dbl value
  if zeroTest doubled then
    ({ Wires.idle with doubled := some doubled, z := some true }, zeroPattern)
  else
    let k0 := xtr8 doubled
    let k1 := xor80 k0
    let k2 := shr1 k1
    let k3 := sub82 k2
    let w := mrg8 doubled k3
    let s := swap16 w
    let x := shl7 s
    ({ doubled := some doubled, z := some false, k0 := some k0, k1 := some k1, k2 := some k2, k3 := some k3,
       w := some w, s := some s, x := some x },
     bitcast x)

/-- The function CONVERT on patterns: `BitVec 32` to `BitVec 32` (40_convert.md R44; 92_eei_decisions.md D5). -/
def convert (value : Word) : Word := (invocation value).2

/-- The step of the one agent: "a relation between an input word and an output word and nothing else" beside a state of the unit
type (10_state.md R10). -/
def blockStep (b : BlockState) (value : Word) : BlockState × Word := (b, convert value)

/-! The output port and the wires, at every moment functions of the word on `value_i` (10_state.md R19, R20). -/

/-- The output port, the wire `result`: the pattern of the ResultValue (10_state.md R11, R19). -/
def State.result_o (st : State) : Word := (blockStep st.block st.value_i).2

/-- The wires `doubled` to `x` of the invocation on the word on `value_i` (10_state.md R11). -/
def State.wires (st : State) : Wires := (invocation st.value_i).1

/-- The block with this word on `value_i` and nothing beside it. -/
def settled (value : Word) : State where
  block := ()
  value_i := value
  bench := Bench.idle

/-- CONVERT: one whole invocation, one atomic step on the word on `value_i`; its result is on `result_o`
(40_convert.md R40, 10_state.md R13). -/
def execConvert (value : Word) (st : State) : Result :=
  .next { st.present value with block := (blockStep st.block value).1 }

end Sys2Proof.Machine
end

