-- ==== Sys2Proof/Machine/Dispatch.lean ====
section
/-! DEFINITION. One arm per constructor of Instr, each one direct call of its meaning. -/

namespace Sys2Proof.Machine

def exec (i : Instr) (s : State) : Host.Outcome State Fault Refusal :=
  match i with
  | .convert value => Sys2Proof.Machine.execConvert value s
  | .dbl value => Sys2Proof.Machine.execDbl value s
  | .ztst doubled => Sys2Proof.Machine.execZtst doubled s
  | .xtr8 doubled => Sys2Proof.Machine.execXtr8 doubled s
  | .xor80 k0 => Sys2Proof.Machine.execXor80 k0 s
  | .shr1 k1 => Sys2Proof.Machine.execShr1 k1 s
  | .sub82 k2 => Sys2Proof.Machine.execSub82 k2 s
  | .mrg8 doubled k3 => Sys2Proof.Machine.execMrg8 doubled k3 s
  | .swap16 w => Sys2Proof.Machine.execSwap16 w s
  | .shl7 v => Sys2Proof.Machine.execShl7 v s
  | .bitcast x => Sys2Proof.Machine.execBitcast x s

end Sys2Proof.Machine
end

