-- ==== Sys2Proof/Machine/Step.lean ====
section
/-! DEFINITION. One step: the invocation on the word that stands on `value_i`. The block fetches no instruction
(10_state.md R13); the input word is the only thing it decodes (30_encoding.md R34). -/

namespace Sys2Proof.Machine

/-- One invocation, atomic (40_convert.md R40; 92_eei_decisions.md D2). -/
def step (s : State) : Host.Outcome State Fault Refusal := exec (decode s.value_i) s

/-- The host presents the word whose low `nbits` bits are `w` (zeros above), so that the next step converts it
(70_reset_and_hazards.md R89; log 4). `result_o` is CONVERT of that word from then on (10_state.md R19). -/
def State.withFetchWord (s : State) (nbits w : Nat) : State := s.present (wordOfTableBits nbits w)

end Sys2Proof.Machine
end

