-- ==== Sys2Proof/Machine/HostRun.lean ====
section
/-! DEFINITION. The host: it presents words and reads results, on one copy of the block or on several
(70_reset_and_hazards.md R89 to R91, 60_exceptions.md R79). -/

namespace Sys2Proof.Machine

/-- A run is "a finite sequence of invocations chosen by the host" (70_reset_and_hazards.md R91). The observation of each is the
pair of input word and result pattern (92_eei_decisions.md D14). -/
def runHost : List Word → State → Host.Outcome (State × List (Word × Word)) Fault Refusal
  | [], st => .next (st, [])
  | v :: rest, st =>
    match step (st.present v) with
    | .fault f => .fault f
    | .refused f => .refused f
    | .next st' =>
      match runHost rest st' with
      | .next (last, seen) => .next (last, (v, st'.result_o) :: seen)
      | .fault f => .fault f
      | .refused f => .refused f

/-- One use of one copy among several: which copy, and the word its host presents. -/
structure Use where
  copy : Nat
  word : Word
  deriving DecidableEq, Repr

/-- Several copies of the block used in some order. The copies share nothing (60_exceptions.md R79; 92_eei_decisions.md D15);
a use of a copy that is not there is no invocation. Each observation is the use and the result its host reads. -/
def runPool : List Use → List State → Host.Outcome (List State × List (Use × Word)) Fault Refusal
  | [], pool => .next (pool, [])
  | u :: rest, pool =>
    match pool[u.copy]? with
    | none => runPool rest pool
    | some st =>
      match step (st.present u.word) with
      | .fault f => .fault f
      | .refused f => .refused f
      | .next st' =>
        match runPool rest (pool.set u.copy st') with
        | .next (last, seen) => .next (last, (u, st'.result_o) :: seen)
        | .fault f => .fault f
        | .refused f => .refused f

end Sys2Proof.Machine
end

