-- ==== Sys2Proof/Machine/Reading.lean ====
section
/-! DEFINITION. A host's reading of a result pattern as a number and its class. PRESUMED (log 11): the spec marks both passages
"from general knowledge, not in source" (93_implementation_defined.md G1, G2). No step and no meaning reads anything here. -/

namespace Sys2Proof

/-- The IEEE-754 classes (93_implementation_defined.md G2). -/
inductive FloatClass where
  | zero | subnormal | normal | infinite | nan
  deriving DecidableEq, Repr

/-- The class of a datum, from its exponent and mantissa fields (93_implementation_defined.md G2). -/
def F32.classify (f : F32) : FloatClass :=
  if f.exponent = 0x00#8 then (if f.mantissa = 0 then .zero else .subnormal)
  else if f.exponent = 0xFF#8 then (if f.mantissa = 0 then .infinite else .nan)
  else .normal

/-- The number of a normal datum and of the all-zero pattern (42_reconstruct.md R67; 93_implementation_defined.md G1); the spec
reads no other pattern as a number. -/
def F32.number (f : F32) : Option ℚ :=
  match f.classify with
  | .normal =>
    some ((-1) ^ f.sign.toNat * 2 ^ ((f.exponent.toNat : ℤ) - 127) * (1 + (f.mantissa.toNat : ℚ) / 2 ^ 23))
  | .zero => if f.sign = 0 then some 0 else none
  | .subnormal | .infinite | .nan => none

end Sys2Proof
end

