-- ==== Sys2Proof/Machine/Wiring.lean ====
section
/-! DEFINITION. The stages in their wired order, each taking its operand from the wires (10_state.md R13). Nothing outside the
block sees them apart (40_convert.md R40, 60_exceptions.md R80): this is how CONVERT is put together, not a finer step. -/

namespace Sys2Proof.Machine

/-- What a stage after ZTST takes part with: only when `z` is false (10_state.md R13, 40_convert.md R42). -/
def whenNotZero (b : Bench) (i : Option Instr) : Option Instr :=
  if b.wires.z = some false then i else none

/-- The instruction a stage carries out on the word and on the wires driven so far; `none` where it takes no part. -/
def stageInstr (r : Row) (value : Word) (b : Bench) : Option Instr :=
  match r with
  | .convert => none
  | .dbl => some (.dbl value)
  | .ztst => b.wires.doubled.map .ztst
  | .xtr8 => whenNotZero b (b.wires.doubled.map .xtr8)
  | .xor80 => whenNotZero b (b.wires.k0.map .xor80)
  | .shr1 => whenNotZero b (b.wires.k1.map .shr1)
  | .sub82 => whenNotZero b (b.wires.k2.map .sub82)
  | .mrg8 => whenNotZero b (b.wires.doubled.bind fun doubled => b.wires.k3.map (.mrg8 doubled))
  | .swap16 => whenNotZero b (b.wires.w.map .swap16)
  | .shl7 => whenNotZero b (b.wires.s.map .shl7)
  | .bitcast => whenNotZero b (b.wires.x.map .bitcast)

/-- Run the stages of a list in its order on a block with a word on its port, each from the wires the earlier ones drove: the wires
when all are done. -/
def runStages : List Row → State → Bench → Host.Outcome Bench Fault Refusal
  | [], _, b => .next b
  | r :: rest, st, b =>
    match stageInstr r st.value_i b with
    | none => runStages rest st b
    | some i =>
      match exec i st with
      | .next st' => runStages rest st' (b.merge st'.bench)
      | .fault f => .fault f
      | .refused f => .refused f

/-- The stage instructions that take part, in order: a trace of 95_test_vectors.md section 4.1. -/
def stageTrace : List Row → State → Bench → List Instr
  | [], _, _ => []
  | r :: rest, st, b =>
    match stageInstr r st.value_i b with
    | none => stageTrace rest st b
    | some i =>
      match exec i st with
      | .next st' => i :: stageTrace rest st' (b.merge st'.bench)
      | .fault _ => [i]
      | .refused _ => [i]

end Sys2Proof.Machine
end

