-- ==== Sys2Proof/Safety.lean ====
section
/-! DEFINITION. What claims call a legal result, the invariant of the block and an outcome that does not stop. -/

namespace Sys2Proof.Safety

open Sys2Proof.Machine

/-- The patterns a result can be: the zero pattern, or an exponent byte in `0x7E` to `0xFD` with the low seven bits zero
(30_encoding.md R31, 42_reconstruct.md R65). -/
def LegalResult (r : Word) : Prop :=
  r = 0x00000000#32 ∨
    (0x7E#8 ≤ r.extractLsb' 23 8 ∧ r.extractLsb' 23 8 ≤ 0xFD#8 ∧ r.extractLsb' 0 7 = 0)

/-- The invariant of the block with a host before it. -/
structure Inv (s : State) : Prop where
  /-- 42_reconstruct.md R65. -/
  legal : LegalResult s.result_o
  /-- The fast path and nothing else puts out the zero pattern (40_convert.md R43). -/
  zero  : s.wires.z = some true ↔ s.result_o = 0x00000000#32
  /-- No stage is shown on its own: nothing beside the word on `value_i` can be seen. -/
  quiet : s.bench = Bench.idle

/-- The one kind of outcome a step may have (60_exceptions.md R73). -/
def Completes (o : Result) : Prop := ∃ t, o = .next t

/-- Whatever the state before, CONVERT of this word completes in a state of which `P` holds. -/
def AfterConvert (value : Word) (P : State → Prop) : Prop :=
  ∀ st : State, ∃ t : State, exec (.convert value) st = .next t ∧ P t

/-- Whatever the state, this stage evaluated on its own completes and the bench then shows what `P` says. That a stage alone is
seen there is the model's representation (log 6). -/
def AfterStage (i : Instr) (P : Bench → Prop) : Prop :=
  ∀ st : State, ∃ t : State, exec i st = .next t ∧ P t.bench

/-- The word is outside the zero set: the invocation goes on past ZTST (40_convert.md R42, R43). -/
def NonZeroPath (value : Word) : Prop := value.extractLsb' 0 31 ≠ 0

end Sys2Proof.Safety
end

