-- ==== Sys2Proof/Certificates/Slice0/Obligations.lean ====
section
/-! DEFINITION. The statements for the provers. "In context" clauses speak of a stage inside an invocation, through CONVERT. -/

open Sys2Proof Sys2Proof.Machine Sys2Proof.Safety

/-! ## The stages, each with its result and what holds of it in context

Each says what the stage makes of its operand, as its rule gives it. `AfterStage` reads it on the bench: that a stage executed on its
own shows its output wire there is the model's representation (log 6), no claim of the rule. The frame, which rests on log 6 too, is
StagesTouchOnlyTheirWires. -/

/-- 40_convert.md R41. The bench as the place to see it is the model's choice, log 6. -/
def Obligations.DblDoublesAndDropsBit31 : Prop :=
  ∀ value : Word, AfterStage (.dbl value) fun b => ∃ doubled : Word,
    b.wires.doubled = some doubled ∧
    doubled = value + value ∧
    doubled.toNat = (value.toNat + value.toNat) % 2 ^ 32 ∧
    doubled = value <<< 1 ∧
    doubled.extractLsb' 1 31 = value.extractLsb' 0 31 ∧
    doubled.getLsbD 0 = false ∧
    AfterStage (.dbl (value ^^^ 0x80000000#32)) fun b' => b'.wires.doubled = some doubled

/-- 40_convert.md R42. Besides `z`, only a true test drives the result. With the test skipped, the later stages would make
`0x5F000000` of a zero word; CONVERT lets nothing of theirs through.
The bench as the place to see it is the model's choice, log 6. -/
def Obligations.ZtstTakesTheFastPathOnZeroOnly : Prop :=
  (∀ doubled : Word, AfterStage (.ztst doubled) fun b =>
    (doubled = 0x00000000#32 → b.wires.z = some true ∧ b.result = some 0x00000000#32) ∧
    (doubled ≠ 0x00000000#32 → b.wires.z = some false ∧ b.result = none)) ∧
  shl7 (swap16 (mrg8 0x00000000#32 (sub82 (shr1 (xor80 (xtr8 0x00000000#32)))))) = 0x5F000000#32 ∧
  ∀ value : Word, AfterConvert value fun t => ∃ doubled : Word,
    t.wires.doubled = some doubled ∧ t.wires.z = some (decide (doubled = 0x00000000#32)) ∧
    (t.wires.z = some true → t.result_o = 0x00000000#32)

/-- 41_extract_xor.md R50. The bench as the place to see it is the model's choice, log 6. -/
def Obligations.Xtr8TakesTheLowByte : Prop :=
  (∀ doubled : Word, AfterStage (.xtr8 doubled) fun b => ∃ k0 : Byte,
    b.wires.k0 = some k0 ∧
    k0 = doubled.extractLsb' 0 8 ∧ k0.toNat = doubled.toNat % 2 ^ 8) ∧
  (∀ value : Word, NonZeroPath value → AfterConvert value fun t => ∃ k0 : Byte,
    t.wires.k0 = some k0 ∧ k0.getLsbD 0 = false ∧ k0.extractLsb' 1 7 = value.extractLsb' 0 7) ∧
  ∃ value : Word, AfterConvert value fun t => t.wires.k0 = some 0x00#8 ∧ t.wires.z = some false

/-- 41_extract_xor.md R51. The bench as the place to see it is the model's choice, log 6. -/
def Obligations.Xor80FlipsTheTopBit : Prop :=
  (∀ k0 : Byte, AfterStage (.xor80 k0) fun b => ∃ k1 : Byte,
    b.wires.k1 = some k1 ∧
    k1 = k0 ^^^ 0x80#8 ∧ k1.getLsbD 7 = !k0.getLsbD 7 ∧ k1.extractLsb' 0 7 = k0.extractLsb' 0 7 ∧
    k1 = k0 + 0x80#8 ∧ k1 = k0 - 0x80#8 ∧
    AfterStage (.xor80 k1) fun b' => b'.wires.k1 = some k0) ∧
  ∀ value : Word, NonZeroPath value → AfterConvert value fun t => ∃ k1 : Byte,
    t.wires.k1 = some k1 ∧ k1.getLsbD 7 = !value.getLsbD 6 ∧
    k1.extractLsb' 1 6 = value.extractLsb' 0 6 ∧ k1.getLsbD 0 = false

/-- 41_extract_xor.md R52: logical, a zero enters at bit 7 whatever `k1[7]` is.
The bench as the place to see it is the model's choice, log 6. -/
def Obligations.Shr1ShiftsLogically : Prop :=
  (∀ k1 : Byte, AfterStage (.shr1 k1) fun b => ∃ k2 : Byte,
    b.wires.k2 = some k2 ∧
    k2.getLsbD 7 = false ∧ k2.extractLsb' 0 7 = k1.extractLsb' 1 7 ∧ k2.toNat = k1.toNat / 2 ∧ k2 ≤ 0x7F#8) ∧
  ∀ value : Word, NonZeroPath value → AfterConvert value fun t => ∃ k1 k2 : Byte,
    t.wires.k1 = some k1 ∧ t.wires.k2 = some k2 ∧ k1.getLsbD 0 = false ∧
    k2.getLsbD 6 = !value.getLsbD 6 ∧ k2.extractLsb' 0 6 = value.extractLsb' 0 6 ∧
    k2 = (value.extractLsb' 0 7 ^^^ 0x40#7).setWidth 8

/-- 41_extract_xor.md R53: modulo 2^8, no clamp; in context every invocation that reaches it borrows.
The bench as the place to see it is the model's choice, log 6. -/
def Obligations.Sub82WrapsModulo256 : Prop :=
  (∀ k2 : Byte, AfterStage (.sub82 k2) fun b => ∃ k3 : Byte,
    b.wires.k3 = some k3 ∧
    k3 = k2 - 0x82#8 ∧ (k3.toNat : ℤ) = ((k2.toNat : ℤ) - 130) % 256 ∧
    k3.toNat = (k2.toNat + 126) % 256 ∧ k3 = k2 + 0x7E#8) ∧
  ∀ value : Word, NonZeroPath value → AfterConvert value fun t => ∃ k2 k3 : Byte,
    t.wires.k2 = some k2 ∧ t.wires.k3 = some k3 ∧ k2 ≤ 0x7F#8 ∧ k2 < 0x82#8 ∧ 0x7E#8 ≤ k3 ∧ k3 ≤ 0xFD#8

/-- 42_reconstruct.md R60: zero extension, the upper 24 bits kept whatever `k3[7]` is.
The bench as the place to see it is the model's choice, log 6. -/
def Obligations.Mrg8ReplacesTheLowByte : Prop :=
  (∀ (doubled : Word) (k3 : Byte), AfterStage (.mrg8 doubled k3) fun b => ∃ w : Word,
    b.wires.w = some w ∧
    w = (doubled &&& 0xFFFFFF00#32) ||| k3.setWidth 32 ∧
    w.extractLsb' 8 24 = doubled.extractLsb' 8 24 ∧ w.extractLsb' 0 8 = k3 ∧
    ∀ doubled' : Word, doubled'.extractLsb' 8 24 = doubled.extractLsb' 8 24 →
      AfterStage (.mrg8 doubled' k3) fun b' => b'.wires.w = some w) ∧
  ∀ value : Word, NonZeroPath value → AfterConvert value fun t => ∃ (k3 : Byte) (w : Word),
    t.wires.k3 = some k3 ∧ t.wires.w = some w ∧
    (value.extractLsb' 0 7 ≠ 0x40#7 ∧ value.extractLsb' 0 7 ≠ 0x41#7 ↔ 0x80#8 ≤ k3) ∧
    w.getLsbD 8 = value.getLsbD 7 ∧ w.extractLsb' 9 7 = value.extractLsb' 8 7 ∧
    w.extractLsb' 16 16 = value.extractLsb' 15 16

/-- 42_reconstruct.md R61: the two shifted words share no set bit, so `or`, `xor` and `+32` agree.
The bench as the place to see it is the model's choice, log 6. -/
def Obligations.Swap16ExchangesTheHalves : Prop :=
  (∀ w : Word, AfterStage (.swap16 w) fun b => ∃ s : Word,
    b.wires.s = some s ∧
    s = (w <<< 16) ||| (w >>> 16) ∧ s = (w <<< 16) ^^^ (w >>> 16) ∧ s = (w <<< 16) + (w >>> 16) ∧
    s.extractLsb' 16 16 = w.extractLsb' 0 16 ∧ s.extractLsb' 0 16 = w.extractLsb' 16 16 ∧
    AfterStage (.swap16 s) fun b' => b'.wires.s = some w) ∧
  ∀ value : Word, NonZeroPath value → AfterConvert value fun t => ∃ (k3 : Byte) (s : Word),
    t.wires.k3 = some k3 ∧ t.wires.s = some s ∧
    s.extractLsb' 25 7 = value.extractLsb' 8 7 ∧ s.getLsbD 24 = value.getLsbD 7 ∧
    s.extractLsb' 16 8 = k3 ∧ s.extractLsb' 0 16 = value.extractLsb' 15 16

/-- 42_reconstruct.md R62: a shift, not a rotate. The bench as the place to see it is the model's choice, log 6. -/
def Obligations.Shl7DropsTheTopSevenBits : Prop :=
  (∀ s : Word, AfterStage (.shl7 s) fun b => ∃ x : Word,
    b.wires.x = some x ∧
    x.extractLsb' 7 25 = s.extractLsb' 0 25 ∧ x.extractLsb' 0 7 = 0 ∧ x.toNat = s.toNat * 2 ^ 7 % 2 ^ 32) ∧
  ∀ value : Word, NonZeroPath value → AfterConvert value fun t => ∃ (k3 : Byte) (s x : Word),
    t.wires.k3 = some k3 ∧ t.wires.s = some s ∧ t.wires.x = some x ∧ s.extractLsb' 16 8 ≠ 0 ∧
    x.getLsbD 31 = value.getLsbD 7 ∧ x.extractLsb' 23 8 = k3 ∧
    x.extractLsb' 7 16 = value.extractLsb' 15 16 ∧ x.extractLsb' 0 7 = 0

/-- 42_reconstruct.md R63 and 20_memory.md R24: bit `i` of the result is bit `i` of `x`, for all 2^32 patterns; the
datum's fields are bits 31, 30:23 and 22:0. The bench as the place to see it is the model's choice, log 6. -/
def Obligations.BitcastKeepsEveryBit : Prop :=
  ∀ x : Word, AfterStage (.bitcast x) fun b =>
    b.result = some x ∧
    x = bitsU32 (bitcastF32 x) ∧
    (bitcastF32 x).sign.getLsbD 0 = x.getLsbD 31 ∧
    (∀ i, i < 8 → (bitcastF32 x).exponent.getLsbD i = x.getLsbD (23 + i)) ∧
    ∀ i, i < 23 → (bitcastF32 x).mantissa.getLsbD i = x.getLsbD i

/-- The model's choice, log 6: a stage executed on its own shows the wires of the `out` column of its row (10_state.md R11;
opcode_table.json) and no other, and leaves the block as it is: the word on `value_i`, and with it `result_o` and the wires of the
invocation. What a stage is given to work on depends only on the wires of its `in` column and on `z`. -/
def Obligations.StagesTouchOnlyTheirWires : Prop :=
  (∀ (i : Instr) (st : State), i.row ≠ .convert → ∃ t : State, exec i st = .next t ∧
    t.value_i = st.value_i ∧ t.result_o = st.result_o ∧ t.wires = st.wires ∧
    ∀ n : WireName, n ∉ i.row.outs → t.bench.read n = none) ∧
  ∀ (r : Row) (value : Word) (b c : Bench), (∀ n ∈ WireName.z :: r.ins, c.read n = b.read n) →
    stageInstr r value c = stageInstr r value b

/-! ## CONVERT -/

/-- 40_convert.md R40, in the spec's own operators. -/
def Obligations.ConvertComputesTheElevenLines : Prop :=
  ∀ value : Word, decode value = .convert value ∧ AfterConvert value fun t =>
    let doubled := value + value
    let k0 := doubled.extractLsb' 0 8
    let k1 := k0 ^^^ 0x80#8
    let k2 := k1 >>> 1
    let k3 := k2 - 0x82#8
    let w := (doubled &&& 0xFFFFFF00#32) ||| k3.setWidth 32
    let s := (w <<< 16) ||| (w >>> 16)
    let x := s <<< 7
    t.value_i = value ∧ t.wires.doubled = some doubled ∧
    if doubled = 0x00000000#32 then t.wires.z = some true ∧ t.result_o = 0x00000000#32
    else t.wires.z = some false ∧ t.wires.k0 = some k0 ∧ t.wires.k1 = some k1 ∧ t.wires.k2 = some k2 ∧
      t.wires.k3 = some k3 ∧ t.wires.w = some w ∧ t.wires.s = some s ∧ t.wires.x = some x ∧ t.result_o = x

/-- 10_state.md R13: the atomic operation is what the ten stages make in their wired order, each working on the wires the
earlier ones drove; all ten take part outside the zero set and only the first two in it. -/
def Obligations.ConvertIsTheStagesInWiredOrder : Prop :=
  ∀ (value : Word) (st : State), ∃ t : State, exec (.convert value) st = .next t ∧
    runStages Row.wiredOrder (st.present value) Bench.idle = .next ⟨t.wires, some t.result_o⟩ ∧
    (stageTrace Row.wiredOrder (st.present value) Bench.idle).map Instr.row =
      if value.extractLsb' 0 31 = 0 then [.dbl, .ztst] else Row.wiredOrder

/-- The model's choice, log 3: when `z` is true the wires after it are left undriven ("stages XTR8 to BITCAST contribute
nothing", 40_convert.md R42; R91 says nothing of what the hardware computes there). -/
def Obligations.ZeroPathDrivesNoLaterWire : Prop :=
  ∀ value : Word, ¬ NonZeroPath value → AfterConvert value fun t =>
    t.wires = { Wires.idle with doubled := some 0x00000000#32, z := some true } ∧ t.result_o = 0x00000000#32

/-- 40_convert.md R43: the zero set and its consequences (a) to (c). -/
def Obligations.ZeroSetIsExactlyTwoWords : Prop :=
  (∀ value : Word, AfterConvert value fun t =>
    (t.wires.z = some true ↔ value.extractLsb' 0 31 = 0) ∧
    (t.wires.z = some true ↔ value = 0x00000000#32 ∨ value = 0x80000000#32) ∧
    (t.result_o = 0x00000000#32 ↔ value <<< 1 = 0#32) ∧
    (t.result_o.extractLsb' 23 8 = 0x00#8 → t.result_o = 0x00000000#32) ∧
    t.result_o ≠ 0x80000000#32) ∧
  ∀ value : Word, value = 0x00000080#32 ∨ value = 0x80000080#32 →
    AfterConvert value fun t => t.result_o = 0xDF000000#32

/-- 40_convert.md R44: every invocation completes, and its result is a function of the input word alone. -/
def Obligations.EveryInvocationCompletes : Prop :=
  ∃ f : Word → Word, ∀ s : State, ∃ t : State, step s = .next t ∧ t.value_i = s.value_i ∧ t.result_o = f s.value_i

/-- 40_convert.md R45, the closed form; the spec marks it derived from the stage rules, a theorem to prove. -/
def Obligations.ConvertMeetsTheClosedForm : Prop :=
  ∀ value : Word, AfterConvert value fun t =>
    if value.extractLsb' 0 31 = 0 then t.result_o = 0x00000000#32
    else
      t.result_o.extractLsb' 31 1 = value.extractLsb' 7 1 ∧
      t.result_o.extractLsb' 23 8 = (value.extractLsb' 0 7 ^^^ 0x40#7).setWidth 8 + 0x7E#8 ∧
      t.result_o.extractLsb' 7 16 = value.extractLsb' 15 16 ∧
      t.result_o.extractLsb' 0 7 = 0

/-- 40_convert.md R45, 30_encoding.md R30: bit 31 is dead, and bits 14:8 matter in the zero test alone. -/
def Obligations.DeadAndTestOnlyBits : Prop :=
  (∀ value : Word, AfterConvert value fun t =>
    ∀ st : State, ∃ t', exec (.convert (value ^^^ 0x80000000#32)) st = .next t' ∧
      t'.result_o = t.result_o ∧ t'.wires = t.wires) ∧
  (∀ value value' : Word, (∀ i, i < 8 ∨ 15 ≤ i ∧ i < 31 → value'.getLsbD i = value.getLsbD i) →
    value.extractLsb' 15 16 ≠ 0 ∨ value.extractLsb' 0 8 ≠ 0 →
    AfterConvert value fun t => AfterConvert value' fun t' => t'.result_o = t.result_o) ∧
  ∀ value : Word, value.extractLsb' 15 16 = 0 → value.extractLsb' 0 8 = 0 → AfterConvert value fun t =>
    t.result_o = if value.extractLsb' 8 7 = 0 then 0x00000000#32 else 0x5F000000#32

/-- 40_convert.md R45: "it has exactly 2^24 + 1 distinct results over 2^32 inputs". -/
def Obligations.ConvertHasExactly16777217Results : Prop :=
  {r : Word | ∃ value : Word, AfterConvert value fun t => t.result_o = r}.ncard = 2 ^ 24 + 1

/-- 40_convert.md R46: reading the datum's pattern back gives the word of step 7, or zero from step 2, and no result is a NaN
(the class names are the spec's general knowledge, log 11). -/
def Obligations.ResultPatternRoundTrips : Prop :=
  (∀ x : Word, bitsU32 (bitcastF32 x) = x) ∧ (∀ f : F32, bitcastF32 (bitsU32 f) = f) ∧
  ∀ value : Word, AfterConvert value fun t =>
    (t.wires.z = some true → bitsU32 (bitcastF32 t.result_o) = 0x00000000#32) ∧
    (t.wires.z = some false → t.wires.x = some (bitsU32 (bitcastF32 t.result_o))) ∧
    (bitcastF32 t.result_o).classify ≠ .nan

/-- 41_extract_xor.md R54: the exponent transform in context; injective, with image `0x7E` to `0xFD`. -/
def Obligations.ExponentTransform : Prop :=
  (∀ value : Word, NonZeroPath value → AfterConvert value fun t => ∃ k3 : Byte,
    let e := value.extractLsb' 0 7
    t.wires.k3 = some k3 ∧ k3 = (e ^^^ 0x40#7).setWidth 8 + 0x7E#8 ∧
    (e ≤ 0x3F#7 → k3.toNat = e.toNat + 190 ∧ 0xBE#8 ≤ k3 ∧ k3 ≤ 0xFD#8) ∧
    (0x40#7 ≤ e → k3.toNat = e.toNat + 62 ∧ 0x7E#8 ≤ k3 ∧ k3 ≤ 0xBD#8)) ∧
  (∀ value value' : Word, NonZeroPath value → NonZeroPath value' →
    AfterConvert value fun t => AfterConvert value' fun t' =>
      (t.wires.k3 = t'.wires.k3 ↔ value.extractLsb' 0 7 = value'.extractLsb' 0 7)) ∧
  ∀ k : Byte, (∃ value : Word, NonZeroPath value ∧ AfterConvert value fun t => t.wires.k3 = some k) ↔
    (0x7E#8 ≤ k ∧ k ≤ 0xFD#8)

/-- 30_encoding.md R32: the content of every wire, in terms of the input bits, on the non-zero path. -/
def Obligations.BitFlowOfTheWires : Prop :=
  ∀ value : Word, NonZeroPath value → AfterConvert value fun t =>
    ∃ (doubled w s x : Word) (k0 k1 k2 k3 : Byte),
      t.wires = { doubled := some doubled, z := some false, k0 := some k0, k1 := some k1, k2 := some k2, k3 := some k3,
                  w := some w, s := some s, x := some x } ∧
      doubled = value.extractLsb' 15 16 ++ value.extractLsb' 8 7 ++ value.extractLsb' 7 1 ++ value.extractLsb' 0 7 ++ 0#1 ∧
      k0 = value.extractLsb' 0 7 ++ 0#1 ∧
      k1 = ~~~ value.extractLsb' 6 1 ++ value.extractLsb' 0 6 ++ 0#1 ∧
      k2 = 0#1 ++ ~~~ value.extractLsb' 6 1 ++ value.extractLsb' 0 6 ∧
      k3.toNat = k2.toNat + 126 ∧ k2 ≤ 127#8 ∧
      w = value.extractLsb' 15 16 ++ value.extractLsb' 8 7 ++ value.extractLsb' 7 1 ++ k3 ∧
      s = value.extractLsb' 8 7 ++ value.extractLsb' 7 1 ++ k3 ++ value.extractLsb' 15 16 ∧
      x = value.extractLsb' 7 1 ++ k3 ++ value.extractLsb' 15 16 ++ 0#7

/-- 42_reconstruct.md R65: the two zero-set inputs give the zero pattern, every other a normal number between the two
extreme magnitudes, each of which occurs with either sign (class names: log 11). -/
def Obligations.EveryResultIsZeroOrNormal : Prop :=
  (∀ value : Word, AfterConvert value fun t =>
    ((value = 0x00000000#32 ∨ value = 0x80000000#32) ↔ t.result_o = 0x00000000#32) ∧
    (t.result_o ≠ 0x00000000#32 →
      (bitcastF32 t.result_o).classify = .normal ∧
      126 ≤ (bitcastF32 t.result_o).exponent.toNat ∧ (bitcastF32 t.result_o).exponent.toNat ≤ 253 ∧
      0x3F000000 ≤ (t.result_o.extractLsb' 0 31).toNat ∧ (t.result_o.extractLsb' 0 31).toNat ≤ 0x7EFFFF80)) ∧
  ∀ r : Word, r = 0x3F000000#32 ∨ r = 0xBF000000#32 ∨ r = 0x7EFFFF80#32 ∨ r = 0xFEFFFF80#32 →
    ∃ value : Word, AfterConvert value fun t => t.result_o = r

/-- 42_reconstruct.md R67 with R64: the number a result denotes, in the spec's reading from general knowledge (log 11). -/
def Obligations.NumberOfAResult : Prop :=
  ∀ value : Word, AfterConvert value fun t =>
    (bitcastF32 t.result_o).number =
      if value.extractLsb' 0 31 = 0 then some 0
      else some ((-1) ^ (value.extractLsb' 7 1).toNat *
        2 ^ (((((value.extractLsb' 0 7 ^^^ 0x40#7).toNat + 126 : ℕ) : ℤ)) - 127) *
        (1 + ((value.extractLsb' 15 16).toNat : ℚ) / 2 ^ 16))

/-! ## Decoding and encoding -/

/-- 30_encoding.md R34: there is no opcode. -/
def Obligations.EveryWordSelectsConvert : Prop :=
  ∀ word : Word, decode word = .convert word ∧
    (∀ r : Row, r.selects word = true ↔ r = .convert) ∧
    Row.convert.matchBits = 0x00000000#32 ∧ Row.convert.mask = 0x00000000#32 ∧
    AfterConvert word fun t => t.wires.z = some (decide (word = 0x00000000#32 ∨ word = 0x80000000#32))

/-- For every instruction of every row (all are well formed, 30_encoding.md R35), decoding its encoding gives it back; and a
bit string that decodes is the encoding of what it decodes to. The place of MRG8's second operand is the model's choice, log 7. -/
def Obligations.RowDecodeInvertsEncode : Prop :=
  (∀ i : Instr, i.wellFormed = true ∧ (encode i).row = i.row ∧ decodeRow (encode i) = .ok i) ∧
  ∀ (rw : RowWord) (i : Instr), decodeRow rw = .ok i → encode i = rw

/-- 30_encoding.md R30: the five fields tile the source word in the order of the pattern. -/
def Obligations.SourceFieldsTileTheWord : Prop :=
  (∀ value : Word, (SourceFields.ofWord value).toWord = value) ∧
  (∀ f : SourceFields, SourceFields.ofWord f.toWord = f) ∧
  ∀ f : SourceFields, f.toWord.getLsbD 31 = f.h.getLsbD 0 ∧
    (∀ i, i < 16 → f.toWord.getLsbD (15 + i) = f.m.getLsbD i) ∧
    (∀ i, i < 7 → f.toWord.getLsbD (8 + i) = f.l.getLsbD i) ∧
    f.toWord.getLsbD 7 = f.s.getLsbD 0 ∧
    ∀ i, i < 7 → f.toWord.getLsbD i = f.e.getLsbD i

/-- 30_encoding.md R36: only a string of exactly the row's width decodes; the block's own input is 32 bits. -/
def Obligations.OnlyExactWidthsDecode : Prop :=
  (∀ rw : RowWord, (∃ i, decodeRow rw = .ok i) ↔ (rw.nbits = rw.row.width ∧ rw.bits < 2 ^ rw.nbits)) ∧
  ∀ nbits bits : Nat, (∃ i, decodeBits nbits bits = .ok i) ↔ (nbits = 32 ∧ bits < 2 ^ 32)

/-- A few words of 95_test_vectors.md section 5, written from their field views, with the instruction they are, and the row words of
a SHR1 (section 4.6) and an MRG8 (section 4.8). That `k3` stands above `doubled` in the MRG8 word is the model's choice, log 7. -/
def Obligations.SampleWordsDecode : Prop :=
  decodeTableWord 32 0x80000042 = some (.convert (SourceFields.mk 1#1 0x0000#16 0x00#7 0#1 0x42#7).toWord) ∧
  decodeTableWord 32 0x800000C1 = some (.convert (SourceFields.mk 1#1 0x0000#16 0x00#7 1#1 0x41#7).toWord) ∧
  decodeTableWord 32 0x12345678 = some (.convert (SourceFields.mk 0#1 0x2468#16 0x56#7 0#1 0x78#7).toWord) ∧
  decodeTableWord 32 0x80004042 = some (.convert (SourceFields.mk 1#1 0x0000#16 0x40#7 0#1 0x42#7).toWord) ∧
  decodeTableWord 32 0xFFFFFFFF = some (.convert (SourceFields.mk 1#1 0xFFFF#16 0x7F#7 1#1 0x7F#7).toWord) ∧
  decodeRow (RowWord.mk .mrg8 40 0xB62468ACF0) = .ok (.mrg8 0x2468ACF0#32 0xB6#8) ∧
  decodeRow (RowWord.mk .shr1 8 0x80) = .ok (.shr1 0x80#8)

/-- The conditions of `Instr.inContext`, which the rules give as "in context", say exactly which stage operands occur inside an
invocation (R41, R42, R50 to R54, R60 to R65). -/
def Obligations.InContextIsWhatInvocationsReach : Prop :=
  ∀ i : Instr, i.row ≠ .convert →
    (i.inContext = true ↔
      ∃ (value : Word) (st : State), i ∈ stageTrace Row.wiredOrder (st.present value) Bench.idle)

/-! ## The machine -/

/-- A step is `exec` of the instruction that the word on `value_i` decodes to, with nothing around it. That the word the host
presents is the one the next step runs, and that a short table word is extended with zeros, are the model's choices, log 4 and log 5;
`result_o` is CONVERT of that word from then on (10_state.md R19). -/
def Obligations.StepRunsTheDecodedWord : Prop :=
  (∀ (s : State) (i : Instr), decodeBits 32 s.value_i.toNat = .ok i → step s = exec i s) ∧
  (∀ s : State, decodeBits 32 s.value_i.toNat = .ok (.convert s.value_i)) ∧
  ∀ (s : State) (nbits w : Nat), nbits ≤ 32 → ∃ i,
    decodeTableWord nbits w = some i ∧ i = .convert (BitVec.ofNat 32 (w % 2 ^ nbits)) ∧
    step (s.withFetchWord nbits w) = exec i (s.withFetchWord nbits w) ∧
    s.withFetchWord nbits w = { s with value_i := BitVec.ofNat 32 (w % 2 ^ nbits), bench := Bench.idle } ∧
    AfterConvert (BitVec.ofNat 32 (w % 2 ^ nbits)) fun t => t.result_o = (s.withFetchWord nbits w).result_o

/-- 60_exceptions.md R70, R73: no instruction faults or is refused, in any state; there is no fault to raise. -/
def Obligations.NothingEverStops : Prop :=
  (∀ (i : Instr) (s : State), Completes (exec i s)) ∧ (∀ s : State, Completes (step s)) ∧ ¬ Nonempty Fault

/-- 10_state.md R10, R18: nothing an invocation does is visible to a later one, and the same word gives the same result
whatever was converted in between. -/
def Obligations.NoHiddenState : Prop :=
  (∀ (value : Word) (s t : State), exec (.convert value) s = exec (.convert value) t) ∧
  (∀ s t : State, s.value_i = t.value_i → step s = step t) ∧
  (∀ (i : Instr) (s t : State), s.value_i = t.value_i → exec i s = exec i t) ∧
  ∀ (value : Word) (between : List Word) (st : State), ∃ (last : State) (seen : List (Word × Word)) (r : Word),
    runHost (value :: (between ++ [value])) st = .next (last, seen) ∧
    seen.head? = some (value, r) ∧ seen.getLast? = some (value, r) ∧ seen.length = between.length + 2

/-- 20_memory.md R26: presenting the same word again changes nothing; the word on the port is whole and kept. -/
def Obligations.SameWordAgainSameState : Prop :=
  ∀ s t : State, step s = .next t →
    t.value_i = s.value_i ∧ t.present t.value_i = t ∧ step t = .next t ∧ step (t.present t.value_i) = .next t

/-- 20_memory.md R27, 60_exceptions.md R79: on any copies and in any order, each use reads what its word alone gives, and a
copy nobody uses is untouched. That copies used at once are uses taken one at a time is the model's choice, log 10. -/
def Obligations.CopiesAndOrderDoNotMatter : Prop :=
  ∀ (uses : List Use) (pool : List State), (∀ u ∈ uses, u.copy < pool.length) →
    ∃ (alone : Word → Word) (last : List State),
      (∀ (word : Word) (st : State), ∃ t, runHost [word] st = .next (t, [(word, alone word)])) ∧
      runPool uses pool = .next (last, uses.map fun u => (u, alone u.word)) ∧
      last.length = pool.length ∧
      (∀ c, (∀ u ∈ uses, u.copy ≠ c) → last[c]? = pool[c]?) ∧
      ∀ uses' : List Use, uses'.Perm uses → ∃ (last' : List State) (seen' : List (Use × Word)),
        runPool uses' pool = .next (last', seen') ∧ seen'.Perm (uses.map fun u => (u, alone u.word))

/-- 70_reset_and_hazards.md R91: a run of any words from any state ends with all of them converted, and leaves the block as the
last word alone would. -/
def Obligations.HostRunConvertsEveryWord : Prop :=
  ∀ (words : List Word) (st : State), ∃ (last : State) (seen : List (Word × Word)),
    runHost words st = .next (last, seen) ∧ seen.map Prod.fst = words ∧
    (∀ p ∈ seen, AfterConvert p.1 fun t => t.result_o = p.2) ∧
    (∀ word, words.getLast? = some word → exec (.convert word) st = .next last) ∧
    (words = [] → last = st)

/-- An invariant that the host and the block keep, whatever word the host presents: the result is zero or has an exponent byte in
`0x7E` to `0xFD` and its low seven bits zero (30_encoding.md R31, 42_reconstruct.md R65), it is zero exactly when the fast path is
taken (40_convert.md R43), and nothing beside the word on the port can be seen (10_state.md R10). -/
def Obligations.StepKeepsTheInvariant : Prop :=
  ∀ s : State, Inv s →
    (∀ t : State, step s = .next t → Inv t) ∧
    ∀ v : Word, Inv (s.present v) ∧ ∀ t : State, step (s.present v) = .next t → Inv t ∧ t.value_i = v

/-- One step brings any state, also one no run reaches, into the invariant. -/
def Obligations.StepEstablishesTheInvariant : Prop :=
  ∀ s : State, ∃ t, step s = .next t ∧ Inv t

/-- 10_state.md R20, 70_reset_and_hazards.md R82: after reset the result is CONVERT of the word on `value_i`. That this word is
zero is the model's choice, log 2. -/
def Obligations.ResetIsSettled : Prop :=
  Inv State.reset ∧ step State.reset = .next State.reset ∧ State.reset.value_i = 0x00000000#32 ∧
  AfterConvert State.reset.value_i fun t => t.result_o = State.reset.result_o ∧ t.wires = State.reset.wires

/-- 70_reset_and_hazards.md R85, R87: the right results on the inputs that expose the implementation hazards. -/
def Obligations.HazardInputsGiveTheRightResults : Prop :=
  (AfterConvert 0x80000000#32 fun t => t.result_o = 0x00000000#32) ∧
  (AfterConvert 0x80000042#32 fun t => t.wires.k3 = some 0x80#8 ∧ t.result_o = 0x40000000#32) ∧
  (AfterConvert 0x80000001#32 fun t =>
    t.wires.k2 = some 0x41#8 ∧ t.wires.k3 = some 0xBF#8 ∧ t.result_o = 0x5F800000#32) ∧
  (AfterConvert 0xC0000043#32 fun t => t.result_o = 0x40C00000#32) ∧
  (AfterConvert 0xFFFFFFFF#32 fun t => t.result_o = 0xDEFFFF80#32) ∧
  (AfterConvert 0x40000000#32 fun t => t.wires.k0 = some 0x00#8 ∧ t.result_o = 0x5F400000#32)

/-- 10_state.md R19 and R20, 70_reset_and_hazards.md R82 and R84: in every state, `result_o` and the wires are those that CONVERT
gives the word on `value_i`: once the host has presented a word, whatever stood there before, and at reset. Two clauses rest on the
model's choices: that a stage executed on its own leaves the port as it is, log 6; and that `withFetchWord` is the host presenting its
word, log 4, with short table words extended by zeros, log 5. -/
def Obligations.PortsFollowTheWordAtEveryMoment : Prop :=
  ∃ (f : Word → Word) (g : Word → Wires),
    (∀ value : Word, AfterConvert value fun t => t.value_i = value ∧ t.result_o = f value ∧ t.wires = g value) ∧
    (∀ s : State, s.result_o = f s.value_i ∧ s.wires = g s.value_i) ∧
    (∀ (s : State) (v : Word), (s.present v).result_o = f v ∧ (s.present v).wires = g v) ∧
    (∀ (s : State) (nbits w : Nat), (s.withFetchWord nbits w).result_o = f (wordOfTableBits nbits w)) ∧
    (∀ (i : Instr) (s : State), i.row ≠ .convert → ∃ t : State, exec i s = .next t ∧ t.result_o = f s.value_i) ∧
    State.reset.result_o = f State.reset.value_i
end

