-- ==== Sys2Proof/Laws/Slices.lean ====
section
/-! SUPPORT. Slices of concatenations and of slices, for reading fields out of words put together from fields. -/

namespace Sys2Proof

/-- Two vectors with the same bits are equal. -/
theorem eq_of_bits {n : ℕ} {x y : BitVec n} (h : ∀ i, i < n → x.getLsbD i = y.getLsbD i) : x = y :=
  BitVec.eq_of_getLsbD_eq h

theorem extract_append_high {n m : ℕ} (x : BitVec n) (y : BitVec m) : (x ++ y).extractLsb' m n = x := by
  apply eq_of_bits
  intro i hi
  simp [BitVec.getLsbD_append, hi]

theorem extract_append_low {n m : ℕ} (x : BitVec n) (y : BitVec m) : (x ++ y).extractLsb' 0 m = y := by
  apply eq_of_bits
  intro i hi
  simp [BitVec.getLsbD_append, hi]

theorem extract_append_within_high {n m a l : ℕ} (x : BitVec n) (y : BitVec m) (h : m ≤ a) :
    (x ++ y).extractLsb' a l = x.extractLsb' (a - m) l := by
  apply eq_of_bits
  intro i hi
  simp [BitVec.getLsbD_append, hi, show ¬ (a + i < m) by omega, show a + i - m = a - m + i by omega]

theorem extract_append_within_low {n m a l : ℕ} (x : BitVec n) (y : BitVec m) (h : a + l ≤ m) :
    (x ++ y).extractLsb' a l = y.extractLsb' a l := by
  apply eq_of_bits
  intro i hi
  simp [BitVec.getLsbD_append, hi, show a + i < m by omega]

theorem extract_extract {n : ℕ} (x : BitVec n) (a l b m : ℕ) (h : b + m ≤ l) :
    (x.extractLsb' a l).extractLsb' b m = x.extractLsb' (a + b) m := by
  apply eq_of_bits
  intro i hi
  simp [hi, show b + i < l by omega, show a + (b + i) = a + b + i by omega]

end Sys2Proof
end

