-- ==== Sys2Proof/Laws/Stages.lean ====
section
/-! SUPPORT. What each wired operation makes of its input, as slices put together: one lemma per stage function. -/

namespace Sys2Proof.Machine

theorem dbl_eq_shift (value : Word) : dbl value = value <<< 1 := by
  apply BitVec.eq_of_toNat_eq
  simp [dbl, BitVec.toNat_add, BitVec.toNat_shiftLeft, Nat.shiftLeft_eq]
  omega

theorem dbl_eq_append (value : Word) : dbl value = value.extractLsb' 0 31 ++ 0#1 := by
  apply BitVec.eq_of_getLsbD_eq
  intro i hi
  rw [dbl_eq_shift, BitVec.getLsbD_append]
  by_cases h : i < 1
  · simp [h]
  · simp [h, hi, show i - 1 < 31 by omega, BitVec.getLsbD_eq_getElem (show i - 1 < 32 by omega)]

/-- The dead bit: DBL does not see bit 31. -/
theorem dbl_flip_bit31 (value : Word) : dbl (value ^^^ 0x80000000#32) = dbl value := by
  rw [dbl_eq_append, dbl_eq_append]
  congr 1
  apply BitVec.eq_of_getLsbD_eq
  intro i hi
  have h : (0x80000000#32 : Word).getLsbD i = false := by interval_cases i <;> rfl
  simp [hi, h]

/-- The zero test of a doubled word is a test of bits 30:0. -/
theorem zeroTest_dbl (value : Word) : zeroTest (dbl value) = decide (value.extractLsb' 0 31 = 0) := by
  have h : (value + value = 0#32) ↔ value.extractLsb' 0 31 = 0 := by
    constructor <;> intro h
    · apply BitVec.eq_of_toNat_eq
      have := congrArg BitVec.toNat h
      simp [BitVec.toNat_add] at this ⊢
      omega
    · apply BitVec.eq_of_toNat_eq
      have := congrArg BitVec.toNat h
      simp [BitVec.toNat_add] at this ⊢
      omega
  simp only [zeroTest, dbl, zeroPattern, beq_eq_decide]
  exact decide_eq_decide.mpr h

theorem xtr8_eq_extract (doubled : Word) : xtr8 doubled = doubled.extractLsb' 0 8 := by
  apply BitVec.eq_of_toNat_eq
  simp [xtr8]

/-- SUB82 never borrows twice: on the range SHR1 leaves it is an addition of 126. -/
theorem sub82_eq_add (k2 : Byte) : sub82 k2 = k2 + 0x7E#8 := by
  apply BitVec.eq_of_toNat_eq
  simp [sub82, kSub, BitVec.toNat_sub, BitVec.toNat_add]
  omega

theorem shr1_le (k1 : Byte) : shr1 k1 ≤ 0x7F#8 := by
  have := k1.isLt
  simp only [shr1, kShr, BitVec.le_def, BitVec.toNat_ushiftRight, Nat.shiftRight_eq_div_pow]
  simp
  omega

theorem mrg8_eq_append (doubled : Word) (k3 : Byte) : mrg8 doubled k3 = doubled.extractLsb' 8 24 ++ k3 := by
  apply BitVec.eq_of_getLsbD_eq
  intro i hi
  have h : (0xFFFFFF00#32 : Word).getLsbD i = decide (8 ≤ i) := by interval_cases i <;> rfl
  rw [BitVec.getLsbD_append, mrg8, keepMask, BitVec.getLsbD_or, BitVec.getLsbD_and, h]
  by_cases h8 : i < 8
  · simp [h8, hi]
  · simp [h8, hi, show 8 ≤ i by omega, show i - 8 < 24 by omega, show 8 + (i - 8) = i by omega]

theorem swap16_eq_append (w : Word) : swap16 w = w.extractLsb' 0 16 ++ w.extractLsb' 16 16 := by
  apply BitVec.eq_of_getLsbD_eq
  intro i hi
  rw [BitVec.getLsbD_append, swap16, swapDistance]
  by_cases h : i < 16
  · simp [h, hi]
  · simp [h, hi, show i - 16 < 16 by omega, BitVec.getLsbD_eq_getElem (show i - 16 < 32 by omega),
      BitVec.getLsbD_of_ge w (16 + i) (by omega)]

theorem shl7_eq_append (s : Word) : shl7 s = s.extractLsb' 0 25 ++ 0#7 := by
  apply BitVec.eq_of_getLsbD_eq
  intro i hi
  rw [BitVec.getLsbD_append, shl7, finalShift]
  by_cases h : i < 7
  · simp [h, hi]
  · simp [h, hi, show i - 7 < 25 by omega, BitVec.getLsbD_eq_getElem (show i - 7 < 32 by omega)]

/-- BITCAST is wiring: the pattern of the datum is the word. -/
theorem bitcast_eq (x : Word) : bitcast x = x := by
  apply BitVec.eq_of_getLsbD_eq
  intro i hi
  simp only [bitcast, bitsU32, bitcastF32]
  rw [BitVec.getLsbD_append, BitVec.getLsbD_append]
  by_cases h : i < 23
  · simp [h]
  · by_cases h' : i - 23 < 8
    · simp [h, h', show 23 + (i - 23) = i by omega]
    · simp [show i = 31 by omega]

end Sys2Proof.Machine
end

