-- ==== Sys2Proof/Laws/State.lean ====
section
/-! SUPPORT. One lemma per field per operation of Machine/Ops.lean, so that no proof unfolds a record update. -/

namespace Sys2Proof.Machine

variable (st : State) (b : Bench)

@[simp] theorem State.present_block (v : Word) : (st.present v).block = st.block := rfl
@[simp] theorem State.present_value_i (v : Word) : (st.present v).value_i = v := rfl
@[simp] theorem State.present_bench (v : Word) : (st.present v).bench = Bench.idle := rfl

@[simp] theorem State.setBench_block (c : Bench) : (st.setBench c).block = st.block := rfl
@[simp] theorem State.setBench_value_i (c : Bench) : (st.setBench c).value_i = st.value_i := rfl
@[simp] theorem State.setBench_bench (c : Bench) : (st.setBench c).bench = c := rfl

/-- Evaluating a stage leaves nothing that a later presentation could see. -/
@[simp] theorem State.present_setBench (c : Bench) (v : Word) : (st.setBench c).present v = st.present v := rfl
@[simp] theorem State.present_present (u v : Word) : (st.present u).present v = st.present v := rfl

@[simp] theorem Bench.idle_wires : Bench.idle.wires = Wires.idle := rfl
@[simp] theorem Bench.idle_result : Bench.idle.result = none := rfl

@[simp] theorem Bench.driveDoubled_wires (v : Word) : (b.driveDoubled v).wires = { b.wires with doubled := some v } := rfl
@[simp] theorem Bench.driveDoubled_result (v : Word) : (b.driveDoubled v).result = b.result := rfl

@[simp] theorem Bench.driveZ_wires (v : Bool) : (b.driveZ v).wires = { b.wires with z := some v } := rfl
@[simp] theorem Bench.driveZ_result (v : Bool) : (b.driveZ v).result = b.result := rfl

@[simp] theorem Bench.driveK0_wires (v : Byte) : (b.driveK0 v).wires = { b.wires with k0 := some v } := rfl
@[simp] theorem Bench.driveK0_result (v : Byte) : (b.driveK0 v).result = b.result := rfl

@[simp] theorem Bench.driveK1_wires (v : Byte) : (b.driveK1 v).wires = { b.wires with k1 := some v } := rfl
@[simp] theorem Bench.driveK1_result (v : Byte) : (b.driveK1 v).result = b.result := rfl

@[simp] theorem Bench.driveK2_wires (v : Byte) : (b.driveK2 v).wires = { b.wires with k2 := some v } := rfl
@[simp] theorem Bench.driveK2_result (v : Byte) : (b.driveK2 v).result = b.result := rfl

@[simp] theorem Bench.driveK3_wires (v : Byte) : (b.driveK3 v).wires = { b.wires with k3 := some v } := rfl
@[simp] theorem Bench.driveK3_result (v : Byte) : (b.driveK3 v).result = b.result := rfl

@[simp] theorem Bench.driveW_wires (v : Word) : (b.driveW v).wires = { b.wires with w := some v } := rfl
@[simp] theorem Bench.driveW_result (v : Word) : (b.driveW v).result = b.result := rfl

@[simp] theorem Bench.driveS_wires (v : Word) : (b.driveS v).wires = { b.wires with s := some v } := rfl
@[simp] theorem Bench.driveS_result (v : Word) : (b.driveS v).result = b.result := rfl

@[simp] theorem Bench.driveX_wires (v : Word) : (b.driveX v).wires = { b.wires with x := some v } := rfl
@[simp] theorem Bench.driveX_result (v : Word) : (b.driveX v).result = b.result := rfl

@[simp] theorem Bench.driveResult_wires (v : Word) : (b.driveResult v).wires = b.wires := rfl
@[simp] theorem Bench.driveResult_result (v : Word) : (b.driveResult v).result = some v := rfl

@[simp] theorem Bench.merge_wires (c : Bench) : (b.merge c).wires = b.wires.merge c.wires := rfl
@[simp] theorem Bench.merge_result (c : Bench) : (b.merge c).result = c.result.or b.result := rfl

variable (before new : Wires)

@[simp] theorem Wires.merge_doubled : (before.merge new).doubled = new.doubled.or before.doubled := rfl
@[simp] theorem Wires.merge_z : (before.merge new).z = new.z.or before.z := rfl
@[simp] theorem Wires.merge_k0 : (before.merge new).k0 = new.k0.or before.k0 := rfl
@[simp] theorem Wires.merge_k1 : (before.merge new).k1 = new.k1.or before.k1 := rfl
@[simp] theorem Wires.merge_k2 : (before.merge new).k2 = new.k2.or before.k2 := rfl
@[simp] theorem Wires.merge_k3 : (before.merge new).k3 = new.k3.or before.k3 := rfl
@[simp] theorem Wires.merge_w : (before.merge new).w = new.w.or before.w := rfl
@[simp] theorem Wires.merge_s : (before.merge new).s = new.s.or before.s := rfl
@[simp] theorem Wires.merge_x : (before.merge new).x = new.x.or before.x := rfl
@[simp] theorem Wires.idle_doubled : Wires.idle.doubled = none := rfl
@[simp] theorem Wires.idle_z : Wires.idle.z = none := rfl
@[simp] theorem Wires.idle_k0 : Wires.idle.k0 = none := rfl
@[simp] theorem Wires.idle_k1 : Wires.idle.k1 = none := rfl
@[simp] theorem Wires.idle_k2 : Wires.idle.k2 = none := rfl
@[simp] theorem Wires.idle_k3 : Wires.idle.k3 = none := rfl
@[simp] theorem Wires.idle_w : Wires.idle.w = none := rfl
@[simp] theorem Wires.idle_s : Wires.idle.s = none := rfl
@[simp] theorem Wires.idle_x : Wires.idle.x = none := rfl

/-- Presenting the word that already stands on the port changes nothing where no stage is shown on its own. -/
theorem State.present_self (h : st.bench = Bench.idle) : st.present st.value_i = st := by
  cases st
  cases h
  rfl

/-- The block's own state is the unit type: two states differ in the word or in the bench, or not at all. -/
theorem State.ext_of_ports {s t : State} (hv : s.value_i = t.value_i) (hb : s.bench = t.bench) : s = t := by
  cases s
  cases t
  cases hv
  cases hb
  rfl

end Sys2Proof.Machine
end

