-- ==== Sys2Proof/Laws/Convert.lean ====
section
/-! SUPPORT. What `exec`, `step` and one whole invocation can do: the lemmas later proofs cite instead of unfolding them. -/

namespace Sys2Proof.Machine

open Sys2Proof.Safety

variable (st : State)

/-! ## Each meaning's answer -/

@[simp] theorem exec_convert (value : Word) : exec (.convert value) st = .next (settled value) := rfl
@[simp] theorem exec_dbl (value : Word) :
    exec (.dbl value) st = .next (st.setBench (Bench.idle.driveDoubled (dbl value))) := rfl
@[simp] theorem exec_xtr8 (doubled : Word) :
    exec (.xtr8 doubled) st = .next (st.setBench (Bench.idle.driveK0 (xtr8 doubled))) := rfl
@[simp] theorem exec_xor80 (k0 : Byte) : exec (.xor80 k0) st = .next (st.setBench (Bench.idle.driveK1 (xor80 k0))) := rfl
@[simp] theorem exec_shr1 (k1 : Byte) : exec (.shr1 k1) st = .next (st.setBench (Bench.idle.driveK2 (shr1 k1))) := rfl
@[simp] theorem exec_sub82 (k2 : Byte) : exec (.sub82 k2) st = .next (st.setBench (Bench.idle.driveK3 (sub82 k2))) := rfl
@[simp] theorem exec_mrg8 (doubled : Word) (k3 : Byte) :
    exec (.mrg8 doubled k3) st = .next (st.setBench (Bench.idle.driveW (mrg8 doubled k3))) := rfl
@[simp] theorem exec_swap16 (w : Word) : exec (.swap16 w) st = .next (st.setBench (Bench.idle.driveS (swap16 w))) := rfl
@[simp] theorem exec_shl7 (s : Word) : exec (.shl7 s) st = .next (st.setBench (Bench.idle.driveX (shl7 s))) := rfl
@[simp] theorem exec_bitcast (x : Word) :
    exec (.bitcast x) st = .next (st.setBench (Bench.idle.driveResult (bitcast x))) := rfl

theorem exec_ztst_of_zero {doubled : Word} (h : zeroTest doubled = true) :
    exec (.ztst doubled) st = .next (st.setBench ((Bench.idle.driveZ true).driveResult zeroPattern)) := by
  simp [exec, execZtst, h]

theorem exec_ztst_of_nonzero {doubled : Word} (h : zeroTest doubled = false) :
    exec (.ztst doubled) st = .next (st.setBench (Bench.idle.driveZ false)) := by
  simp [exec, execZtst, h]

/-- A stage answers with the bench set, whatever it is: it never touches the block or its port. -/
theorem exec_stage {i : Instr} (h : i.row ≠ .convert) : ∃ b : Bench, ∀ st : State, exec i st = .next (st.setBench b) := by
  cases i with
  | convert _ => exact absurd rfl h
  | ztst doubled =>
    cases hz : zeroTest doubled with
    | true => exact ⟨_, fun st => exec_ztst_of_zero st hz⟩
    | false => exact ⟨_, fun st => exec_ztst_of_nonzero st hz⟩
  | _ => exact ⟨_, fun _ => rfl⟩

@[simp] theorem step_eq_settled : step st = .next (settled st.value_i) := rfl

/-! ## The output port and the wires, in every state -/

theorem State.result_o_eq : st.result_o = convert st.value_i := rfl
theorem State.wires_eq : st.wires = (invocation st.value_i).1 := rfl

@[simp] theorem State.present_result_o (v : Word) : (st.present v).result_o = convert v := rfl
@[simp] theorem State.present_wires (v : Word) : (st.present v).wires = (invocation v).1 := rfl
@[simp] theorem State.setBench_result_o (b : Bench) : (st.setBench b).result_o = st.result_o := rfl
@[simp] theorem State.setBench_wires (b : Bench) : (st.setBench b).wires = st.wires := rfl

/-- Presenting a word leaves nothing of the state before. -/
theorem State.present_eq_settled (v : Word) : st.present v = settled v := rfl

@[simp] theorem settled_value_i (value : Word) : (settled value).value_i = value := rfl
@[simp] theorem settled_bench (value : Word) : (settled value).bench = Bench.idle := rfl
@[simp] theorem settled_wires (value : Word) : (settled value).wires = (invocation value).1 := rfl
@[simp] theorem settled_result_o (value : Word) : (settled value).result_o = convert value := rfl

/-- A claim about what CONVERT leaves is a claim about the settled state. -/
theorem afterConvert_iff (value : Word) (P : State → Prop) : AfterConvert value P ↔ P (settled value) := by
  constructor
  · intro h
    simpa using h State.reset
  · exact fun h st => ⟨settled value, rfl, h⟩

/-- A claim about what a stage puts out is a claim about the bench its meaning sets. -/
theorem afterStage_iff {i : Instr} {b : Bench} (h : ∀ st, exec i st = .next (st.setBench b)) (P : Bench → Prop) :
    AfterStage i P ↔ P b := by
  constructor
  · intro hs
    obtain ⟨t, ht, hp⟩ := hs State.reset
    rw [h] at ht
    cases ht
    exact hp
  · exact fun hp st => ⟨st.setBench b, h st, hp⟩

/-! ## The two paths of an invocation -/

theorem zeroTest_eq_false {value : Word} (h : NonZeroPath value) : zeroTest (dbl value) = false := by
  rw [zeroTest_dbl]
  exact decide_eq_false h

theorem dbl_eq_zero {value : Word} (h : ¬ NonZeroPath value) : dbl value = 0x00000000#32 := by
  have : value.extractLsb' 0 31 = 0 := by simpa [NonZeroPath] using h
  rw [dbl_eq_append, this]
  rfl

theorem invocation_of_zero {value : Word} (h : ¬ NonZeroPath value) :
    invocation value = ({ Wires.idle with doubled := some 0x00000000#32, z := some true }, 0x00000000#32) := by
  simp [invocation, dbl_eq_zero h, zeroTest, zeroPattern]

/-- The exponent byte an invocation computes (41_extract_xor.md R54). -/
def exponentByte (value : Word) : Byte := sub82 (shr1 (xor80 (xtr8 (dbl value))))

theorem invocation_of_nonzero {value : Word} (h : NonZeroPath value) :
    invocation value =
      ({ doubled := some (dbl value), z := some false,
         k0 := some (xtr8 (dbl value)), k1 := some (xor80 (xtr8 (dbl value))),
         k2 := some (shr1 (xor80 (xtr8 (dbl value)))), k3 := some (exponentByte value),
         w := some (mrg8 (dbl value) (exponentByte value)),
         s := some (swap16 (mrg8 (dbl value) (exponentByte value))),
         x := some (shl7 (swap16 (mrg8 (dbl value) (exponentByte value)))) },
       shl7 (swap16 (mrg8 (dbl value) (exponentByte value)))) := by
  simp [invocation, zeroTest_eq_false h, exponentByte, bitcast_eq]

theorem convert_of_zero {value : Word} (h : ¬ NonZeroPath value) : convert value = 0x00000000#32 := by
  rw [convert, invocation_of_zero h]

theorem convert_of_nonzero {value : Word} (h : NonZeroPath value) :
    convert value = shl7 (swap16 (mrg8 (dbl value) (exponentByte value))) := by
  rw [convert, invocation_of_nonzero h]

/-! ## The wires of an invocation in terms of the input word -/

theorem k0_wire_eq (value : Word) : xtr8 (dbl value) = value.extractLsb' 0 7 ++ 0#1 := by
  rw [xtr8_eq_extract, dbl_eq_append]
  apply eq_of_bits
  intro i hi
  rw [BitVec.getLsbD_extractLsb', BitVec.getLsbD_append, BitVec.getLsbD_append]
  by_cases h : i < 1
  · simp [h]
  · simp [h, hi, show i - 1 < 31 by omega, show i - 1 < 7 by omega]

theorem exponentByte_eq (value : Word) :
    exponentByte value = (value.extractLsb' 0 7 ^^^ 0x40#7).setWidth 8 + 0x7E#8 := by
  have key : ∀ e : BitVec 7, sub82 (shr1 (xor80 (e ++ 0#1))) = (e ^^^ 0x40#7).setWidth 8 + 0x7E#8 := by decide
  rw [exponentByte, k0_wire_eq]
  exact key _

theorem w_wire_eq (value : Word) :
    mrg8 (dbl value) (exponentByte value) = value.extractLsb' 7 24 ++ exponentByte value := by
  have h : (dbl value).extractLsb' 8 24 = value.extractLsb' 7 24 := by
    rw [dbl_eq_append]
    exact (extract_append_within_high (value.extractLsb' 0 31) 0#1 (by omega)).trans (extract_extract _ _ _ _ _ (by omega))
  rw [mrg8_eq_append, h]

theorem s_wire_eq (value : Word) :
    swap16 (mrg8 (dbl value) (exponentByte value)) =
      value.extractLsb' 7 8 ++ exponentByte value ++ value.extractLsb' 15 16 := by
  rw [swap16_eq_append, w_wire_eq]
  apply eq_of_bits
  intro i hi
  rw [BitVec.getLsbD_append, BitVec.getLsbD_append]
  by_cases h : i < 16
  · simp only [h, if_true, BitVec.getLsbD_extractLsb']
    rw [BitVec.getLsbD_append, if_neg (by omega)]
    simp [show 16 + i - 8 < 24 by omega, show 7 + (16 + i - 8) = 15 + i by omega]
  · simp only [h, if_false, BitVec.getLsbD_extractLsb']
    rw [BitVec.getLsbD_append, BitVec.getLsbD_append]
    by_cases h' : i - 16 < 8
    · simp [h', show i - 16 < 16 by omega]
    · simp [h', show i - 16 < 16 by omega, show i - 16 - 8 < 24 by omega, show i - 16 - 8 < 8 by omega]

theorem x_wire_eq (value : Word) :
    shl7 (swap16 (mrg8 (dbl value) (exponentByte value))) =
      value.extractLsb' 7 1 ++ exponentByte value ++ value.extractLsb' 15 16 ++ 0#7 := by
  rw [shl7_eq_append, s_wire_eq]
  apply eq_of_bits
  intro i hi
  rw [BitVec.getLsbD_append, BitVec.getLsbD_append]
  by_cases h : i < 7
  · simp [h]
  · simp only [h, if_false, BitVec.getLsbD_extractLsb']
    rw [BitVec.getLsbD_append, BitVec.getLsbD_append, BitVec.getLsbD_append, BitVec.getLsbD_append]
    by_cases h' : i - 7 < 16
    · simp [h', show i - 7 < 25 by omega]
    · by_cases h'' : i - 7 - 16 < 8
      · simp [h', h'', show i - 7 < 25 by omega]
      · simp [show i = 31 by omega]

end Sys2Proof.Machine
end

