-- ==== Sys2Proof/Laws/HostRun.lean ====
section
/-! SUPPORT. One invocation of a host's run, on one copy and on a pool: the unfolding later inductions cite. -/

namespace Sys2Proof.Machine

/-- A run goes on from the settled state of its first word. -/
theorem runHost_cons {value : Word} {rest : List Word} {st last : State} {seen : List (Word × Word)}
    (h : runHost rest (settled value) = .next (last, seen)) :
    runHost (value :: rest) st = .next (last, (value, convert value) :: seen) := by
  simp [runHost, h]

/-- A use of a copy that is there settles that copy and no other. -/
theorem runPool_cons {u : Use} {rest : List Use} {pool last : List State} {seen : List (Use × Word)}
    (hu : u.copy < pool.length) (h : runPool rest (pool.set u.copy (settled u.word)) = .next (last, seen)) :
    runPool (u :: rest) pool = .next (last, (u, convert u.word) :: seen) := by
  simp [runPool, List.getElem?_eq_getElem hu, h]

end Sys2Proof.Machine
end

