-- ==== Sys2Proof/Laws/PerInstr.lean ====
section
/-! SUPPORT. Facts about every instruction as syntax, one lemma per constructor. -/

namespace Sys2Proof.Laws.EncodesInRow

/-- The encoding of an instruction names its row, has that row's width, and fits in it. -/
def Statement (i : Instr) : Prop :=
  (encode i).row = i.row ∧ (encode i).nbits = i.row.width ∧ (encode i).bits < 2 ^ i.row.width

theorem convert (value : Word) : Statement (.convert value) := ⟨rfl, rfl, BitVec.isLt _⟩
theorem dbl (value : Word) : Statement (.dbl value) := ⟨rfl, rfl, BitVec.isLt _⟩
theorem ztst (doubled : Word) : Statement (.ztst doubled) := ⟨rfl, rfl, BitVec.isLt _⟩
theorem xtr8 (doubled : Word) : Statement (.xtr8 doubled) := ⟨rfl, rfl, BitVec.isLt _⟩
theorem xor80 (k0 : Byte) : Statement (.xor80 k0) := ⟨rfl, rfl, BitVec.isLt _⟩
theorem shr1 (k1 : Byte) : Statement (.shr1 k1) := ⟨rfl, rfl, BitVec.isLt _⟩
theorem sub82 (k2 : Byte) : Statement (.sub82 k2) := ⟨rfl, rfl, BitVec.isLt _⟩
theorem mrg8 (doubled : Word) (k3 : Byte) : Statement (.mrg8 doubled k3) := ⟨rfl, rfl, BitVec.isLt _⟩
theorem swap16 (w : Word) : Statement (.swap16 w) := ⟨rfl, rfl, BitVec.isLt _⟩
theorem shl7 (s : Word) : Statement (.shl7 s) := ⟨rfl, rfl, BitVec.isLt _⟩
theorem bitcast (x : Word) : Statement (.bitcast x) := ⟨rfl, rfl, BitVec.isLt _⟩

end Sys2Proof.Laws.EncodesInRow
end

