-- ==== Sys2Proof/Tests/Slice0.lean ====
section
/-! SUPPORT. The model's own tests. Expected values are from 95_test_vectors.md and the rules' own examples, never from the model. -/

namespace Sys2Proof.Tests

open Sys2Proof.Machine Sys2Proof.Safety

/-- The next state, for `decide`: an outcome itself has no decidable equality. -/
def nextState (o : Result) : Option State :=
  match o with
  | .next t => some t
  | .fault _ => none
  | .refused _ => none

/-- What one step makes of a word the host presents after reset. -/
def afterWord (value : Nat) : Option State := nextState (step (State.reset.withFetchWord 32 value))

/-- A bench on which every wire shows a value of its own. -/
def crowded : Bench where
  wires := { doubled := some 0x22222222#32, z := some false, k0 := some 0x33#8, k1 := some 0x44#8, k2 := some 0x55#8,
             k3 := some 0x66#8, w := some 0x77777777#32, s := some 0x88888888#32, x := some 0x99999999#32 }
  result := some 0xAAAAAAAA#32

/-- A state no run reaches. -/
def busy : State where
  block := ()
  value_i := 0x11111111#32
  bench := crowded

/-- What the bench shows after a stage is executed on its own in `busy`. -/
def shown (i : Instr) : Option Bench := (nextState (exec i busy)).map State.bench

/-! ## WellFormed smoke: one operand outside the context for each check ("stand-alone only", section 4; R41, R50 to R65) -/

theorem test_inContext_refuses_odd_doubled_at_ztst : (Instr.ztst 0x00000001#32).inContext = false := by decide
theorem test_inContext_refuses_odd_doubled_at_xtr8 : (Instr.xtr8 0xFFFFFFFF#32).inContext = false := by decide
theorem test_inContext_refuses_zero_doubled_at_xtr8 : (Instr.xtr8 0x00000000#32).inContext = false := by decide
theorem test_inContext_refuses_odd_k0 : (Instr.xor80 0xFF#8).inContext = false := by decide
theorem test_inContext_refuses_odd_k1 : (Instr.shr1 0x01#8).inContext = false := by decide
theorem test_inContext_refuses_large_k2 : (Instr.sub82 0x82#8).inContext = false := by decide
theorem test_inContext_refuses_foreign_k3 : (Instr.mrg8 0x00000084#32 0x81#8).inContext = false := by decide
theorem test_inContext_refuses_odd_doubled_at_mrg8 : (Instr.mrg8 0xFFFFFFFF#32 0x00#8).inContext = false := by decide
theorem test_inContext_refuses_zero_doubled_at_mrg8 : (Instr.mrg8 0x00000000#32 0xBE#8).inContext = false := by decide
theorem test_inContext_refuses_low_w_byte : (Instr.swap16 0x12345678#32).inContext = false ∧
    (Instr.swap16 0x0000FF7D#32).inContext = false ∧ (Instr.swap16 0x0000FFFE#32).inContext = false ∧
    (Instr.swap16 0x000000BE#32).inContext = false := by decide
theorem test_inContext_refuses_zero_exponent_s : (Instr.shl7 0xFE000000#32).inContext = false ∧
    (Instr.shl7 0x00FE0000#32).inContext = false ∧ (Instr.shl7 0x00BE0000#32).inContext = false := by decide
theorem test_inContext_refuses_nan_and_subnormal_x : (Instr.bitcast 0x7FC00000#32).inContext = false ∧
    (Instr.bitcast 0x00000001#32).inContext = false ∧ (Instr.bitcast 0x40000001#32).inContext = false := by decide

/-! ## The table -/

theorem test_table_seq : Row.all.map Row.seq = [0, 1, 2, 3, 4, 5, 6, 7, 8, 9, 10] := by decide
theorem test_table_widths : Row.all.map Row.width = [32, 32, 32, 32, 8, 8, 8, 40, 32, 32, 32] := by decide
/-- Each wire but `value` and `result` is driven by exactly one stage (10_state.md R11). -/
theorem test_table_each_wire_has_one_driver :
    ([.doubled, .z, .k0, .k1, .k2, .k3, .w, .s, .x] : List WireName).map
      (fun n => (Row.wiredOrder.filter (fun r => n ∈ r.outs)).length) = [1, 1, 1, 1, 1, 1, 1, 1, 1] := by decide

/-! ## Decoding: a word written from the spec's encoding for every row -/

/-- P1: `h=1 m=0x0000 l=0x00 s=0 e=0x42`. -/
theorem test_decode_convert :
    decodeTableWord 32 0b1_0000000000000000_0000000_0_1000010 = some (.convert 0x80000042#32) := by decide
/-- `caaa…`: c = 1, a = 0x40000043. -/
theorem test_decode_dbl : decodeRow (RowWord.mk .dbl 32 0b1_1000000000000000000000001000011) = .ok (.dbl 0xC0000043#32) := rfl
/-- `dddd…`. -/
theorem test_decode_ztst : decodeRow (RowWord.mk .ztst 32 0b00000000000000000000000100000000) = .ok (.ztst 0x100#32) := rfl
/-- `u` 24 bits, `k` 8 bits. -/
theorem test_decode_xtr8 : decodeRow (RowWord.mk .xtr8 32 0b001001000110100010101100_11110000) = .ok (.xtr8 0x2468ACF0#32) := rfl
/-- `trrrrrrr`. -/
theorem test_decode_xor80 : decodeRow (RowWord.mk .xor80 8 0b1_0000100) = .ok (.xor80 0x84#8) := rfl
/-- `rrrrrrro`. -/
theorem test_decode_shr1 : decodeRow (RowWord.mk .shr1 8 0b0000010_0) = .ok (.shr1 0x04#8) := rfl
/-- `nnnnnnnn`. -/
theorem test_decode_sub82 : decodeRow (RowWord.mk .sub82 8 0b10000001) = .ok (.sub82 0x81#8) := rfl
/-- Second input `kkkkkkkk` above `u` and `x`. -/
theorem test_decode_mrg8 : decodeRow (RowWord.mk .mrg8 40 0b10110110_001001000110100010101100_11110000) =
    .ok (.mrg8 0x2468ACF0#32 0xB6#8) := rfl
/-- `p` 16 bits, `q` 16 bits. -/
theorem test_decode_swap16 : decodeRow (RowWord.mk .swap16 32 0b0001001000110100_0101011001111000) = .ok (.swap16 0x12345678#32) := rfl
/-- `o` 7 bits, `a` 25 bits. -/
theorem test_decode_shl7 : decodeRow (RowWord.mk .shl7 32 0b1010110_0101101100010010001101000) = .ok (.shl7 0xACB62468#32) := rfl
/-- `n`, `b` 8 bits, `f` 23 bits. -/
theorem test_decode_bitcast : decodeRow (RowWord.mk .bitcast 32 0b1_01111111_00000000000000000000000) = .ok (.bitcast 0xBF800000#32) := rfl

theorem test_decode_rejects_other_widths : decodeBits 64 0x80000042 = .error (.wrongWidth .convert 64) := rfl
theorem test_decode_rejects_bits_above_width : decodeRow (RowWord.mk .shr1 8 0x100) = .error (.bitsAboveWidth 8) := rfl
theorem test_decodeTableWord_refuses_wider : decodeTableWord 40 0x80000042 = none := by decide
/-- The bits of an 8-bit row presented to the block are an input word like any other (R34). -/
theorem test_decodeTableWord_short : decodeTableWord 8 0x84 = some (.convert 0x00000084#32) := by decide

/-! ## The rows: one step each -/

/-- Section 4.1, the sample word (S3), every wire. -/
theorem test_convert_sample_trace : (afterWord 0x80000042).map (fun t => (t.wires, t.result_o)) = some
    ({ doubled := some 0x00000084#32, z := some false, k0 := some 0x84#8, k1 := some 0x04#8, k2 := some 0x02#8,
       k3 := some 0x80#8, w := some 0x00000080#32, s := some 0x00800000#32, x := some 0x40000000#32 }, 0x40000000#32) := by decide
/-- Section 4.1: S1, S2, the sign, mantissa and fold rows, and the ends of the domain. -/
theorem test_convert_results :
    [0x00000000, 0x80000000, 0x00000080, 0x00008000, 0x40000000, 0x8000003F, 0x80000040, 0x800000C1, 0xC0000043,
     0x80004042, 0x12345678, 0xA5A5A5A5, 0xDEADBEEF, 0xFFFFFFFF].map (fun v => (afterWord v).map State.result_o) =
    [0x00000000#32, 0x00000000#32, 0xDF000000#32, 0x5F000080#32, 0x5F400000#32, 0x7E800000#32, 0x3F000000#32, 0xBF800000#32,
     0x40C00000#32, 0x40000000#32, 0x5B123400#32, 0xF1A5A580#32, 0xD6DEAD80#32, 0xDEFFFF80#32].map some := by decide

/-- Section 4.2. -/
theorem test_dbl_loses_the_carry :
    nextState (exec (.dbl 0xC0000043#32) busy) =
      some { busy with bench := ⟨{ Wires.idle with doubled := some 0x80000086#32 }, none⟩ } := by decide
theorem test_dbl_keeps_bit0 :
    (shown (.dbl 0x00000001#32)).map (·.wires.doubled) = some (some 0x00000002#32) := by decide
/-- Section 4.3. -/
theorem test_ztst_zero : nextState (exec (.ztst 0x00000000#32) busy) =
    some { busy with bench := ⟨{ Wires.idle with z := some true }, some 0x00000000#32⟩ } := by decide
theorem test_ztst_low_byte_zero : nextState (exec (.ztst 0x00000100#32) busy) =
    some { busy with bench := ⟨{ Wires.idle with z := some false }, none⟩ } := by decide
/-- Section 4.4. -/
theorem test_xtr8_mixed : (shown (.xtr8 0x2468ACF0#32)).map (·.wires.k0) = some (some 0xF0#8) := by decide
theorem test_xtr8_bit8_not_taken : (shown (.xtr8 0x00000100#32)).map (·.wires.k0) = some (some 0x00#8) := by decide
/-- Section 4.5. -/
theorem test_xor80_clears : (shown (.xor80 0x80#8)).map (·.wires.k1) = some (some 0x00#8) := by decide
theorem test_xor80_sets : (shown (.xor80 0x7E#8)).map (·.wires.k1) = some (some 0xFE#8) := by decide
/-- Section 4.6: an arithmetic shift would give `0xC0`. -/
theorem test_shr1_logical : (shown (.shr1 0x80#8)).map (·.wires.k2) = some (some 0x40#8) := by decide
theorem test_shr1_drops_bit0 : (shown (.shr1 0xFF#8)).map (·.wires.k2) = some (some 0x7F#8) := by decide
/-- Section 4.7: clamping would give `0x00`. -/
theorem test_sub82_wraps : (shown (.sub82 0x81#8)).map (·.wires.k3) = some (some 0xFF#8) := by decide
theorem test_sub82_without_borrow : (shown (.sub82 0xFF#8)).map (·.wires.k3) = some (some 0x7D#8) := by decide
/-- Section 4.8. -/
theorem test_mrg8_mixed : (shown (.mrg8 0x2468ACF0#32 0xB6#8)).map (·.wires.w) = some (some 0x2468ACB6#32) := by decide
theorem test_mrg8_zero_extends : (shown (.mrg8 0x00000084#32 0x80#8)).map (·.wires.w) = some (some 0x00000080#32) := by
  decide
/-- Section 4.9. -/
theorem test_swap16_top_bit : (shown (.swap16 0x80000081#32)).map (·.wires.s) = some (some 0x00818000#32) := by decide
theorem test_swap16_mixed : (shown (.swap16 0x12345678#32)).map (·.wires.s) = some (some 0x56781234#32) := by decide
/-- Section 4.10: a rotate would keep the top bits. -/
theorem test_shl7_not_a_rotate : (shown (.shl7 0x80800000#32)).map (·.wires.x) = some (some 0x40000000#32) := by decide
theorem test_shl7_mixed : (shown (.shl7 0xACB62468#32)).map (·.wires.x) = some (some 0x5B123400#32) := by decide
/-- Section 4.11: a NaN pattern is passed unchanged, and the block keeps its word and its own result. -/
theorem test_bitcast_nan : nextState (exec (.bitcast 0x7FC00000#32) busy) =
    some { busy with bench := ⟨Wires.idle, some 0x7FC00000#32⟩ } := by decide
theorem test_bitcast_subnormal : (shown (.bitcast 0x00000001#32)).map Bench.result = some (some 0x00000001#32) := by decide

/-! ## The host and the reading of a result -/

/-- 70_reset_and_hazards.md R82, R84: the result follows the word at once, after reset and after another word. -/
theorem test_result_follows_the_word : (State.reset.withFetchWord 32 0x80000042).result_o = 0x40000000#32 ∧
    (busy.present 0x80000042#32).result_o = 0x40000000#32 ∧
    ((State.reset.present 0xFFFFFFFF#32).present 0x80000042#32).wires.z = some false := by decide
/-- 10_state.md R20: a stage executed on its own changes nothing on the output port. -/
theorem test_stage_leaves_the_port :
    (nextState (exec (.bitcast 0x7FC00000#32) (State.reset.present 0x80000042#32))).map State.result_o = some 0x40000000#32 := by decide

/-- 70_reset_and_hazards.md R90, P1: the harness scenario, and the number its result denotes. -/
theorem test_harness_sample :
    runHost [0x80000042#32] State.reset = .next (settled 0x80000042#32, [(0x80000042#32, 0x40000000#32)]) := rfl
theorem test_harness_number : (bitcastF32 0x40000000#32).number = some 2 := by
  have h : (bitcastF32 0x40000000#32).number =
      some ((-1) ^ 0 * 2 ^ (((128 : ℕ) : ℤ) - 127) * (1 + ((0 : ℕ) : ℚ) / 2 ^ 23)) := rfl
  rw [h]
  norm_num
/-- P3: two copies, an unrelated word in between. -/
theorem test_pool_of_two :
    (match runPool [⟨0, 0x12345678#32⟩, ⟨1, 0xFFFFFFFF#32⟩, ⟨0, 0x92345678#32⟩] [State.reset, busy] with
      | .next (_, seen) => seen.map Prod.snd
      | .fault _ => []
      | .refused _ => []) = [0x5B123400#32, 0xDEFFFF80#32, 0x5B123400#32] := by decide

/-! ## Witnesses: the hypotheses of the obligations are met, at the ends of their ranges -/

theorem witness_nonZeroPath : NonZeroPath 0x00000001#32 ∧ NonZeroPath 0x80000080#32 ∧ NonZeroPath 0x7FFFFFFF#32 := by
  unfold NonZeroPath
  decide
theorem witness_zeroPath : ¬ NonZeroPath 0x00000000#32 ∧ ¬ NonZeroPath 0x80000000#32 := by
  unfold NonZeroPath
  decide
/-- ZtstTakesTheFastPathOnZeroOnly: both cases of the test, and a CONVERT with `z` true. -/
theorem witness_ztst : (0x00000000#32 : Word) = 0x00000000#32 ∧ (0x80000000#32 : Word) ≠ 0x00000000#32 ∧
    (settled 0x80000000#32).wires.z = some true := by decide
/-- Mrg8ReplacesTheLowByte: two words that agree above the low byte, and the exponent fields at the bound of `0x80`. -/
theorem witness_mrg8 : (0xFFFFFFFF#32 : Word).extractLsb' 8 24 = (0xFFFFFF00#32 : Word).extractLsb' 8 24 ∧
    (settled 0x00000041#32).wires.k3 = some 0x7F#8 ∧ (settled 0x00000042#32).wires.k3 = some 0x80#8 := by decide
/-- StagesTouchOnlyTheirWires, first part, and PortsFollowTheWordAtEveryMoment: a stage, and a wire outside its `out` column that the bench showed before. -/
theorem witness_stage_frame : (Instr.shl7 0x00800000#32).row ≠ .convert ∧ WireName.w ∉ Row.shl7.outs ∧
    busy.bench.read .w = some 0x77777777 ∧ (shown (.shl7 0x00800000#32)).map (·.read .w) = some none := by decide
/-- StagesTouchOnlyTheirWires, second part: two different benches that agree on MRG8's wires and `z`. -/
theorem witness_stage_inputs : crowded.driveW 0x0#32 ≠ crowded ∧
    ∀ n ∈ WireName.z :: Row.mrg8.ins, (crowded.driveW 0x0#32).read n = crowded.read n := by decide
/-- ZeroSetIsExactlyTwoWords: both members, the two nearest outside words, and a result with exponent field zero. -/
theorem witness_zero_set : (settled 0x80000000#32).wires.z = some true ∧ (settled 0x00000001#32).wires.z = some false ∧
    (0x80000080#32 = 0x00000080#32 ∨ 0x80000080#32 = (0x80000080#32 : Word)) ∧
    (settled 0x00000000#32).result_o.extractLsb' 23 8 = 0x00#8 := by decide
/-- ConvertMeetsTheClosedForm, NumberOfAResult: both branches. -/
theorem witness_closed_form : (0x80000000#32 : Word).extractLsb' 0 31 = 0 ∧ (0x80000001#32 : Word).extractLsb' 0 31 ≠ 0 := by decide
/-- DeadAndTestOnlyBits: two words that differ only in test-only bits, and both cases of the last clause. -/
theorem witness_test_only_bits :
    (∀ i, i < 31 → (i < 8 ∨ 15 ≤ i ∧ i < 31) → (0x80004142#32 : Word).getLsbD i = (0x80000042#32 : Word).getLsbD i) ∧
    (0x80000042#32 : Word).extractLsb' 0 8 ≠ 0 ∧ (0x00008000#32 : Word).extractLsb' 15 16 ≠ 0 ∧
    (0x00004000#32 : Word).extractLsb' 15 16 = 0 ∧ (0x00004000#32 : Word).extractLsb' 0 8 = 0 ∧
    (0x00004000#32 : Word).extractLsb' 8 7 ≠ 0 ∧ (0x80000000#32 : Word).extractLsb' 8 7 = 0 := by decide
/-- ResultPatternRoundTrips: `z` true and `z` false. -/
theorem witness_round_trip : (settled 0x00000000#32).wires.z = some true ∧ (settled 0x7FFFFFFF#32).wires.z = some false := by decide
/-- ExponentTransform: the fold between `0x3F` and `0x40`, and both ends of the image. -/
theorem witness_exponent_fold : ((0x4000003F#32 : Word).extractLsb' 0 7 ≤ 0x3F#7) ∧ (0x40#7 ≤ (0x40000040#32 : Word).extractLsb' 0 7) ∧
    (settled 0x4000003F#32).wires.k3 = some 0xFD#8 ∧ (settled 0x40000040#32).wires.k3 = some 0x7E#8 := by decide
/-- EveryResultIsZeroOrNormal: the extreme magnitudes are results (section 4.1). -/
theorem witness_extremes : (settled 0x80000040#32).result_o = 0x3F000000#32 ∧ (settled 0xFFFF80BF#32).result_o = 0xFEFFFF80#32 ∧
    (settled 0x80000040#32).result_o ≠ 0x00000000#32 := by decide
/-- RowDecodeInvertsEncode, second part. -/
theorem witness_row_decodes : decodeRow (RowWord.mk .mrg8 40 0xFF00000001) = .ok (.mrg8 0x00000001#32 0xFF#8) := rfl
/-- InContextIsWhatInvocationsReach: a stage instruction inside the context and one outside it. -/
theorem witness_in_context : (Instr.sub82 0x7F#8).row ≠ .convert ∧ (Instr.sub82 0x7F#8).inContext = true ∧
    (Instr.sub82 0x80#8).inContext = false := by decide
/-- StepRunsTheDecodedWord: a state whose word decodes, and a table width within the bound. -/
theorem witness_step : decodeBits 32 busy.value_i.toNat = .ok (.convert 0x11111111#32) ∧ 32 ≤ 32 ∧ 8 ≤ 32 := ⟨rfl, by decide⟩
/-- NoHiddenState: two different states with the same word on the port. -/
theorem witness_same_word : busy ≠ State.reset.present 0x11111111#32 ∧
    busy.value_i = (State.reset.present 0x11111111#32).value_i := by decide
/-- SameWordAgainSameState, StepKeepsTheInvariant: a state in the invariant, its next state, and the next state of another word. -/
theorem witness_invariant : Inv (settled 0x80000042#32) ∧ step (settled 0x80000042#32) = .next (settled 0x80000042#32) ∧
    step ((settled 0x80000042#32).present 0x80000000#32) = .next (settled 0x80000000#32) :=
  ⟨⟨Or.inr (by decide), by decide, rfl⟩, rfl, rfl⟩
/-- The invariant is no truth of every state: one with a stage shown on its own is outside it. -/
theorem witness_invariant_fails : ¬ Inv busy := fun h => absurd h.quiet (by decide)
/-- CopiesAndOrderDoNotMatter: a pool of two with uses of both, a reordering of them, and a copy nobody uses. -/
theorem witness_pool : (∀ u ∈ [Use.mk 0 0x12345678#32, Use.mk 1 0xFFFFFFFF#32], u.copy < [busy, State.reset, busy].length) ∧
    [Use.mk 1 0xFFFFFFFF#32, Use.mk 0 0x12345678#32].Perm [Use.mk 0 0x12345678#32, Use.mk 1 0xFFFFFFFF#32] ∧
    ∀ u ∈ [Use.mk 0 0x12345678#32, Use.mk 1 0xFFFFFFFF#32], u.copy ≠ 2 :=
  ⟨by decide, List.Perm.swap _ _ _, by decide⟩
/-- HostRunConvertsEveryWord: a run with a last word, and the empty run. -/
theorem witness_host_run : [0x00000000#32, 0x80000041#32].getLast? = some (0x80000041#32 : Word) ∧ ([] : List Word) = [] := by decide

end Sys2Proof.Tests
end

section
/-! The proofs of the family 40_convert.md: the front end's two stages, and CONVERT on its two paths. -/

namespace Sys2Proof.Machine

open Sys2Proof.Safety

/-! ## The two stages of the front end on the bench -/

theorem afterStage_dbl_iff (value : Word) (P : Bench → Prop) :
    AfterStage (.dbl value) P ↔ P (Bench.idle.driveDoubled (dbl value)) :=
  afterStage_iff (fun st => exec_dbl st value) P

theorem afterStage_ztst_zero_iff (P : Bench → Prop) :
    AfterStage (.ztst 0x00000000#32) P ↔ P ((Bench.idle.driveZ true).driveResult 0x00000000#32) :=
  afterStage_iff (fun st => exec_ztst_of_zero st rfl) P

theorem zeroTest_eq_decide (doubled : Word) : zeroTest doubled = decide (doubled = 0x00000000#32) :=
  beq_eq_decide doubled 0x00000000#32

theorem afterStage_ztst_iff_of_ne {doubled : Word} (h : doubled ≠ 0x00000000#32) (P : Bench → Prop) :
    AfterStage (.ztst doubled) P ↔ P (Bench.idle.driveZ false) :=
  afterStage_iff (fun st => exec_ztst_of_nonzero st (by simp [zeroTest_eq_decide, h])) P

theorem dbl_extract_high (value : Word) : (dbl value).extractLsb' 1 31 = value.extractLsb' 0 31 := by
  rw [dbl_eq_append, extract_append_high]

theorem dbl_getLsbD_zero (value : Word) : (dbl value).getLsbD 0 = false := by
  rw [dbl_eq_append, BitVec.getLsbD_append]
  rfl

/-! ## The first two wires of an invocation, on either path -/

/-- A word is on the non-zero path exactly when ZTST's comparison of the doubled word fails (40_convert.md R42, R43). -/
theorem nonZeroPath_iff (value : Word) : NonZeroPath value ↔ dbl value ≠ 0x00000000#32 := by
  constructor
  · intro h
    simpa [zeroTest_eq_decide] using zeroTest_eq_false h
  · exact fun h => by_contra fun hz => h (dbl_eq_zero hz)

theorem invocation_doubled (value : Word) : (invocation value).1.doubled = some (dbl value) := by
  by_cases h : NonZeroPath value
  · rw [invocation_of_nonzero h]
  · rw [invocation_of_zero h, dbl_eq_zero h]

theorem invocation_z (value : Word) : (invocation value).1.z = some (decide (dbl value = 0x00000000#32)) := by
  by_cases h : NonZeroPath value
  · rw [invocation_of_nonzero h, decide_eq_false ((nonZeroPath_iff value).mp h)]
  · rw [invocation_of_zero h, decide_eq_true (dbl_eq_zero h)]

theorem convert_eq_zero_of_z {value : Word} (h : (invocation value).1.z = some true) : convert value = 0x00000000#32 := by
  have hd : dbl value = 0x00000000#32 := by simpa [invocation_z] using h
  exact convert_of_zero fun hn => (nonZeroPath_iff value).mp hn hd

end Sys2Proof.Machine

namespace Sys2Proof.Proofs

open Sys2Proof.Machine Sys2Proof.Safety

/-- Settles O1: the doubled word is `value[30:0]` with a zero below it, so bit 31 of the operand is not in it. -/
theorem dblDoublesAndDropsBit31 : Obligations.DblDoublesAndDropsBit31 := by
  intro value
  rw [afterStage_dbl_iff]
  refine ⟨dbl value, rfl, rfl, BitVec.toNat_add value value, dbl_eq_shift value, dbl_extract_high value,
    dbl_getLsbD_zero value, ?_⟩
  rw [afterStage_dbl_iff, dbl_flip_bit31]
  rfl

/-- Settles O2: the stage by the two outcomes of its test, CONVERT by what `z` is on either path. -/
theorem ztstTakesTheFastPathOnZeroOnly : Obligations.ZtstTakesTheFastPathOnZeroOnly := by
  refine ⟨fun doubled => ?_, by decide, fun value => ?_⟩
  · by_cases h : doubled = 0x00000000#32
    · subst h
      exact (afterStage_ztst_zero_iff _).mpr ⟨fun _ => ⟨rfl, rfl⟩, fun hne => absurd rfl hne⟩
    · exact (afterStage_ztst_iff_of_ne h _).mpr ⟨fun hz => absurd hz h, fun _ => ⟨rfl, rfl⟩⟩
  · exact (afterConvert_iff value _).mpr ⟨dbl value, invocation_doubled value, invocation_z value, convert_eq_zero_of_z⟩

/-- Settles O12: the zero test separates the two paths, and on each the invocation's wires are the spec's lines. -/
theorem convertComputesTheElevenLines : Obligations.ConvertComputesTheElevenLines := by
  intro value
  refine ⟨rfl, (afterConvert_iff value _).mpr ⟨rfl, invocation_doubled value, ?_⟩⟩
  by_cases h : NonZeroPath value
  · have hd : value + value ≠ 0x00000000#32 := (nonZeroPath_iff value).mp h
    rw [if_neg hd, settled_wires, settled_result_o, invocation_of_nonzero h,
      convert_of_nonzero h, exponentByte, xtr8_eq_extract]
    exact ⟨rfl, rfl, rfl, rfl, rfl, rfl, rfl, rfl, rfl⟩
  · have hd : value + value = 0x00000000#32 := dbl_eq_zero h
    rw [if_pos hd, settled_wires, settled_result_o, invocation_of_zero h, convert_of_zero h]
    exact ⟨rfl, rfl⟩

/-- Settles O16: the function is CONVERT, and the state after a step is the settled one of the word on the port. -/
theorem everyInvocationCompletes : Obligations.EveryInvocationCompletes :=
  ⟨convert, fun s => ⟨settled s.value_i, step_eq_settled s, settled_value_i _, settled_result_o _⟩⟩

end Sys2Proof.Proofs
end

section
/-! The proofs of the family 41_extract_xor.md: the extractor and the XOR transform, each stage on the bench and in context. -/

namespace Sys2Proof.Machine

open Sys2Proof.Safety

/-! ## The four stages on the bench -/

theorem afterStage_xtr8_iff (doubled : Word) (P : Bench → Prop) :
    AfterStage (.xtr8 doubled) P ↔ P (Bench.idle.driveK0 (xtr8 doubled)) :=
  afterStage_iff (fun st => exec_xtr8 st doubled) P

theorem afterStage_xor80_iff (k0 : Byte) (P : Bench → Prop) :
    AfterStage (.xor80 k0) P ↔ P (Bench.idle.driveK1 (xor80 k0)) :=
  afterStage_iff (fun st => exec_xor80 st k0) P

theorem afterStage_shr1_iff (k1 : Byte) (P : Bench → Prop) :
    AfterStage (.shr1 k1) P ↔ P (Bench.idle.driveK2 (shr1 k1)) :=
  afterStage_iff (fun st => exec_shr1 st k1) P

theorem afterStage_sub82_iff (k2 : Byte) (P : Bench → Prop) :
    AfterStage (.sub82 k2) P ↔ P (Bench.idle.driveK3 (sub82 k2)) :=
  afterStage_iff (fun st => exec_sub82 st k2) P

/-! ## Flipping the top bit of a vector: of a byte by XOR80, of the exponent field in context -/

theorem getLsbD_xor_intMin {n : ℕ} (x : BitVec (n + 1)) :
    (x ^^^ BitVec.intMin (n + 1)).getLsbD n = !x.getLsbD n := by
  rw [BitVec.getLsbD_xor, BitVec.getLsbD_intMin, decide_eq_true rfl, Bool.xor_true]

theorem extract_xor_intMin {n : ℕ} (x : BitVec (n + 1)) :
    (x ^^^ BitVec.intMin (n + 1)).extractLsb' 0 n = x.extractLsb' 0 n := by
  apply eq_of_bits
  intro i hi
  simp [BitVec.getLsbD_intMin, hi, show i ≠ n by omega]

/-! ## What each operation makes of any byte -/

theorem xor80_eq_xor_intMin (k0 : Byte) : xor80 k0 = k0 ^^^ BitVec.intMin 8 := rfl

theorem xor80_xor80 (k0 : Byte) : xor80 (xor80 k0) = k0 := by
  rw [xor80, xor80, BitVec.xor_assoc, BitVec.xor_self, BitVec.xor_zero]

/-- The carry out of bit 7 is lost, so adding `0x80` flips that bit. -/
theorem xor80_eq_add (k0 : Byte) : xor80 k0 = k0 + 0x80#8 := by
  revert k0
  decide

/-- `0x80` is its own negative modulo 2^8. -/
theorem xor80_eq_sub (k0 : Byte) : xor80 k0 = k0 - 0x80#8 := by
  rw [xor80_eq_add, BitVec.sub_eq_add_neg]
  rfl

theorem shr1_eq_append (k1 : Byte) : shr1 k1 = 0#1 ++ k1.extractLsb' 1 7 :=
  BitVec.ushiftRight_eq_extractLsb'_of_lt (by decide)

theorem shr1_getLsbD_seven (k1 : Byte) : (shr1 k1).getLsbD 7 = false := by
  rw [shr1_eq_append, BitVec.getLsbD_append]
  rfl

theorem shr1_extract_low (k1 : Byte) : (shr1 k1).extractLsb' 0 7 = k1.extractLsb' 1 7 := by
  rw [shr1_eq_append, extract_append_low]

theorem toNat_shr1 (k1 : Byte) : (shr1 k1).toNat = k1.toNat / 2 := by
  rw [shr1, kShr, BitVec.toNat_ushiftRight, Nat.shiftRight_eq_div_pow, pow_one]

theorem toNat_sub82 (k2 : Byte) : (sub82 k2).toNat = (k2.toNat + 126) % 256 := by
  rw [sub82_eq_add, BitVec.toNat_add]
  rfl

/-- On the range SHR1 leaves, the wrapped subtraction is an addition of 126 that does not carry. -/
theorem sub82_bounds {k2 : Byte} (h : k2 ≤ 0x7F#8) : 0x7E#8 ≤ sub82 k2 ∧ sub82 k2 ≤ 0xFD#8 := by
  have hk : k2.toNat ≤ 127 := h
  have h3 : (sub82 k2).toNat = k2.toNat + 126 := by rw [toNat_sub82, Nat.mod_eq_of_lt (by omega)]
  rw [BitVec.le_def, BitVec.le_def, h3]
  exact ⟨Nat.le_add_left 126 _, Nat.add_le_add_right hk 126⟩

/-! ## The byte wires of an invocation on the non-zero path, in terms of the exponent field `value[6:0]` -/

theorem append_zero_getLsbD_zero {n : ℕ} (x : BitVec n) : (x ++ 0#1).getLsbD 0 = false := by
  rw [BitVec.getLsbD_append]
  rfl

theorem k1_wire_eq (value : Word) :
    xor80 (xtr8 (dbl value)) = (value.extractLsb' 0 7 ^^^ 0x40#7) ++ 0#1 := by
  have hmask : kXor = 0x40#7 ++ 0#1 := rfl
  rw [k0_wire_eq, xor80, hmask, BitVec.xor_append, BitVec.xor_self]

theorem k2_wire_eq (value : Word) :
    shr1 (xor80 (xtr8 (dbl value))) = (value.extractLsb' 0 7 ^^^ 0x40#7).setWidth 8 := by
  rw [k1_wire_eq, shr1_eq_append, extract_append_high]
  exact (BitVec.setWidth_eq_append (by decide)).symm

theorem invocation_k0 {value : Word} (h : NonZeroPath value) :
    (invocation value).1.k0 = some (xtr8 (dbl value)) := by
  rw [invocation_of_nonzero h]

theorem invocation_k1 {value : Word} (h : NonZeroPath value) :
    (invocation value).1.k1 = some (xor80 (xtr8 (dbl value))) := by
  rw [invocation_of_nonzero h]

theorem invocation_k2 {value : Word} (h : NonZeroPath value) :
    (invocation value).1.k2 = some (shr1 (xor80 (xtr8 (dbl value)))) := by
  rw [invocation_of_nonzero h]

theorem invocation_k3 {value : Word} (h : NonZeroPath value) :
    (invocation value).1.k3 = some (exponentByte value) := by
  rw [invocation_of_nonzero h]

/-- Bit 6 of the exponent field is inverted on its way to `k1[7]` and `k2[6]` (41_extract_xor.md R51, R52). -/
theorem flippedExponent_getLsbD_six (value : Word) :
    (value.extractLsb' 0 7 ^^^ 0x40#7).getLsbD 6 = !value.getLsbD 6 := by
  have h := getLsbD_xor_intMin (n := 6) (value.extractLsb' 0 7)
  rwa [BitVec.getLsbD_extractLsb'] at h

/-- Bits 5:0 of the exponent field are kept on their way to `k1[6:1]` and `k2[5:0]` (41_extract_xor.md R51, R52). -/
theorem flippedExponent_extract_low (value : Word) :
    (value.extractLsb' 0 7 ^^^ 0x40#7).extractLsb' 0 6 = value.extractLsb' 0 6 :=
  (extract_xor_intMin (n := 6) _).trans (extract_extract value 0 7 0 6 (by decide))

end Sys2Proof.Machine

namespace Sys2Proof.Proofs

open Sys2Proof.Machine Sys2Proof.Safety

/-- Settles O3: in context `k0` is the exponent field with a zero below it; `0x40000000` passes the zero test with a
zero low byte. -/
theorem xtr8TakesTheLowByte : Obligations.Xtr8TakesTheLowByte := by
  refine ⟨fun doubled => ?_, fun value h => ?_, 0x40000000#32, ?_⟩
  · exact (afterStage_xtr8_iff doubled _).mpr
      ⟨xtr8 doubled, rfl, xtr8_eq_extract doubled, BitVec.toNat_setWidth 8 doubled⟩
  · refine (afterConvert_iff value _).mpr ⟨_, invocation_k0 h, ?_⟩
    rw [k0_wire_eq]
    exact ⟨append_zero_getLsbD_zero _, extract_append_high _ _⟩
  · rw [afterConvert_iff]
    decide

/-- Settles O4: XOR80 flips the top bit of any byte; in context that byte is the exponent field with a zero below it. -/
theorem xor80FlipsTheTopBit : Obligations.Xor80FlipsTheTopBit := by
  refine ⟨fun k0 => ?_, fun value h => ?_⟩
  · refine (afterStage_xor80_iff k0 _).mpr ⟨xor80 k0, rfl, rfl, getLsbD_xor_intMin (n := 7) k0,
      extract_xor_intMin (n := 7) k0, xor80_eq_add k0, xor80_eq_sub k0, ?_⟩
    rw [afterStage_xor80_iff, xor80_xor80]
    rfl
  · refine (afterConvert_iff value _).mpr ⟨_, invocation_k1 h, ?_⟩
    rw [k1_wire_eq]
    refine ⟨?_, ?_, append_zero_getLsbD_zero _⟩
    · rw [BitVec.getLsbD_append]
      exact flippedExponent_getLsbD_six value
    · rw [extract_append_within_high _ _ (by decide)]
      exact flippedExponent_extract_low value

/-- Settles O5: SHR1 puts a zero above `k1[7:1]`, which in context is the exponent field with its top bit flipped. -/
theorem shr1ShiftsLogically : Obligations.Shr1ShiftsLogically := by
  refine ⟨fun k1 => ?_, fun value h => ?_⟩
  · exact (afterStage_shr1_iff k1 _).mpr
      ⟨shr1 k1, rfl, shr1_getLsbD_seven k1, shr1_extract_low k1, toNat_shr1 k1, shr1_le k1⟩
  · refine (afterConvert_iff value _).mpr ⟨_, _, invocation_k1 h, invocation_k2 h, ?_⟩
    rw [k2_wire_eq, k1_wire_eq]
    refine ⟨append_zero_getLsbD_zero _, ?_, ?_, rfl⟩
    · rw [BitVec.getLsbD_setWidth]
      exact flippedExponent_getLsbD_six value
    · rw [BitVec.extractLsb'_setWidth_of_le (by decide)]
      exact flippedExponent_extract_low value

/-- Settles O6: subtracting 130 is adding 126 modulo 256; in context SHR1 leaves at most `0x7F`, so the difference
always borrows. -/
theorem sub82WrapsModulo256 : Obligations.Sub82WrapsModulo256 := by
  refine ⟨fun k2 => ?_, fun value h => ?_⟩
  · have hsub : ((sub82 k2).toNat : ℤ) = ((k2.toNat : ℤ) - 130) % 256 := by
      rw [toNat_sub82]
      omega
    exact (afterStage_sub82_iff k2 _).mpr ⟨sub82 k2, rfl, rfl, hsub, toNat_sub82 k2, sub82_eq_add k2⟩
  · have hle := shr1_le (xor80 (xtr8 (dbl value)))
    exact (afterConvert_iff value _).mpr ⟨_, _, invocation_k2 h, invocation_k3 h, hle,
      Std.lt_of_le_of_lt hle (show 0x7F#8 < 0x82#8 by decide), sub82_bounds hle⟩

end Sys2Proof.Proofs
end

section
/-! The proofs of the family 42_reconstruct.md: the reconstructor's four stages, each on the bench and in context. -/

namespace Sys2Proof.Machine

open Sys2Proof.Safety

/-! ## The four stages on the bench -/

theorem afterStage_mrg8_iff (doubled : Word) (k3 : Byte) (P : Bench → Prop) :
    AfterStage (.mrg8 doubled k3) P ↔ P (Bench.idle.driveW (mrg8 doubled k3)) :=
  afterStage_iff (fun st => exec_mrg8 st doubled k3) P

theorem afterStage_swap16_iff (w : Word) (P : Bench → Prop) :
    AfterStage (.swap16 w) P ↔ P (Bench.idle.driveS (swap16 w)) :=
  afterStage_iff (fun st => exec_swap16 st w) P

theorem afterStage_shl7_iff (s : Word) (P : Bench → Prop) :
    AfterStage (.shl7 s) P ↔ P (Bench.idle.driveX (shl7 s)) :=
  afterStage_iff (fun st => exec_shl7 st s) P

theorem afterStage_bitcast_iff (x : Word) (P : Bench → Prop) :
    AfterStage (.bitcast x) P ↔ P (Bench.idle.driveResult x) :=
  afterStage_iff (fun st => by rw [exec_bitcast, bitcast_eq]) P

/-! ## Bits of slices and of concatenations -/

theorem getLsbD_extract {n : ℕ} (x : BitVec n) {a l i : ℕ} (h : i < l) :
    (x.extractLsb' a l).getLsbD i = x.getLsbD (a + i) := by
  rw [BitVec.getLsbD_extractLsb', decide_eq_true h, Bool.true_and]

theorem getLsbD_append_within_high {n m i : ℕ} (x : BitVec n) (y : BitVec m) (h : m ≤ i) :
    (x ++ y).getLsbD i = x.getLsbD (i - m) := by
  rw [BitVec.getLsbD_append, if_neg h.not_gt]

/-! ## What each operation makes of any operands -/

theorem mrg8_extract_high (doubled : Word) (k3 : Byte) :
    (mrg8 doubled k3).extractLsb' 8 24 = doubled.extractLsb' 8 24 := by
  rw [mrg8_eq_append, extract_append_high]

theorem mrg8_extract_low (doubled : Word) (k3 : Byte) : (mrg8 doubled k3).extractLsb' 0 8 = k3 := by
  rw [mrg8_eq_append, extract_append_low]

/-- MRG8 does not see the low byte it replaces. -/
theorem mrg8_congr {doubled doubled' : Word} (k3 : Byte)
    (h : doubled'.extractLsb' 8 24 = doubled.extractLsb' 8 24) : mrg8 doubled' k3 = mrg8 doubled k3 := by
  rw [mrg8_eq_append, h, mrg8_eq_append]

theorem shiftLeft_sixteen_eq_append (w : Word) : w <<< 16 = w.extractLsb' 0 16 ++ 0#16 :=
  BitVec.shiftLeft_eq_concat_of_lt (by decide)

theorem ushiftRight_sixteen_eq_append (w : Word) : w >>> 16 = 0#16 ++ w.extractLsb' 16 16 :=
  BitVec.ushiftRight_eq_extractLsb'_of_lt (by decide)

/-- Each shifted word is zero where the other is not, so `xor` puts the halves together as `or` does. -/
theorem swap16_eq_xor (w : Word) : swap16 w = (w <<< 16) ^^^ (w >>> 16) := by
  rw [shiftLeft_sixteen_eq_append, ushiftRight_sixteen_eq_append, BitVec.xor_append, BitVec.xor_zero,
    BitVec.zero_xor, swap16_eq_append]

/-- Each shifted word is zero where the other is not, so their sum has no carry. -/
theorem swap16_eq_add (w : Word) : swap16 w = (w <<< 16) + (w >>> 16) := by
  rw [shiftLeft_sixteen_eq_append, ushiftRight_sixteen_eq_append, BitVec.append_zero_add_zero_append,
    swap16_eq_append]

theorem swap16_extract_high (w : Word) : (swap16 w).extractLsb' 16 16 = w.extractLsb' 0 16 := by
  rw [swap16_eq_append, extract_append_high]

theorem swap16_extract_low (w : Word) : (swap16 w).extractLsb' 0 16 = w.extractLsb' 16 16 := by
  rw [swap16_eq_append, extract_append_low]

theorem swap16_swap16 (w : Word) : swap16 (swap16 w) = w := by
  rw [swap16_eq_append, swap16_extract_low, swap16_extract_high]
  exact BitVec.extractLsb'_append_extractLsb'

theorem shl7_extract_high (s : Word) : (shl7 s).extractLsb' 7 25 = s.extractLsb' 0 25 := by
  rw [shl7_eq_append, extract_append_high]

theorem shl7_extract_low (s : Word) : (shl7 s).extractLsb' 0 7 = 0 := by
  rw [shl7_eq_append, extract_append_low]
  rfl

theorem toNat_shl7 (s : Word) : (shl7 s).toNat = s.toNat * 2 ^ 7 % 2 ^ 32 := by
  rw [shl7, finalShift, BitVec.toNat_shiftLeft, Nat.shiftLeft_eq]

theorem bitcastF32_sign_getLsbD (x : Word) : (bitcastF32 x).sign.getLsbD 0 = x.getLsbD 31 :=
  getLsbD_extract x (by decide)

theorem bitcastF32_exponent_getLsbD (x : Word) (i : ℕ) (h : i < 8) :
    (bitcastF32 x).exponent.getLsbD i = x.getLsbD (23 + i) :=
  getLsbD_extract x h

theorem bitcastF32_mantissa_getLsbD (x : Word) (i : ℕ) (h : i < 23) :
    (bitcastF32 x).mantissa.getLsbD i = x.getLsbD i :=
  (getLsbD_extract x h).trans (congrArg x.getLsbD (Nat.zero_add i))

/-! ## The exponent byte against its bounds (41_extract_xor.md R54; 42_reconstruct.md R60, R62) -/

/-- Adding 126 to the flipped exponent field does not carry. -/
theorem toNat_exponentByte (value : Word) :
    (exponentByte value).toNat = (value.extractLsb' 0 7 ^^^ 0x40#7).toNat + 126 := by
  have hlt := (value.extractLsb' 0 7 ^^^ 0x40#7).isLt
  rw [exponentByte_eq, BitVec.toNat_add, BitVec.toNat_setWidth_of_le (by decide), BitVec.toNat_ofNat]
  omega

theorem exponentByte_ne_zero (value : Word) : exponentByte value ≠ 0 := by
  intro h
  have h0 := toNat_exponentByte value
  rw [h] at h0
  exact absurd h0 (Nat.succ_ne_zero _).symm

/-- The two exponent fields below the bound are those that flipping bit 6 turns into 0 and 1. -/
theorem le_exponentByte_iff (value : Word) :
    0x80#8 ≤ exponentByte value ↔ value.extractLsb' 0 7 ≠ 0x40#7 ∧ value.extractLsb' 0 7 ≠ 0x41#7 := by
  have h0 : value.extractLsb' 0 7 ^^^ 0x40#7 = 0x40#7 ^^^ 0x40#7 ↔ value.extractLsb' 0 7 = 0x40#7 :=
    BitVec.xor_left_inj _
  have h1 : value.extractLsb' 0 7 ^^^ 0x40#7 = 0x41#7 ^^^ 0x40#7 ↔ value.extractLsb' 0 7 = 0x41#7 :=
    BitVec.xor_left_inj _
  rw [ne_eq, ne_eq, ← h0, ← h1, BitVec.le_def, toNat_exponentByte, ← BitVec.toNat_inj,
    ← BitVec.toNat_inj]
  change 128 ≤ _ + 126 ↔ ¬ _ = 0 ∧ ¬ _ = 1
  omega

/-! ## The word wires of an invocation on the non-zero path, as fields of the input word put together -/

theorem invocation_w {value : Word} (h : NonZeroPath value) :
    (invocation value).1.w = some (value.extractLsb' 7 24 ++ exponentByte value) := by
  rw [invocation_of_nonzero h, w_wire_eq]

theorem invocation_s {value : Word} (h : NonZeroPath value) :
    (invocation value).1.s = some (value.extractLsb' 7 8 ++ exponentByte value ++ value.extractLsb' 15 16) := by
  rw [invocation_of_nonzero h, s_wire_eq]

theorem invocation_x {value : Word} (h : NonZeroPath value) :
    (invocation value).1.x =
      some (value.extractLsb' 7 1 ++ exponentByte value ++ value.extractLsb' 15 16 ++ 0#7) := by
  rw [invocation_of_nonzero h, x_wire_eq]

theorem s_wire_extract_exponent (value : Word) :
    (value.extractLsb' 7 8 ++ exponentByte value ++ value.extractLsb' 15 16).extractLsb' 16 8 =
      exponentByte value :=
  (extract_append_within_high _ _ (by decide)).trans (extract_append_low _ _)

end Sys2Proof.Machine

namespace Sys2Proof.Proofs

open Sys2Proof.Machine Sys2Proof.Safety

/-- Settles O7: MRG8 is `doubled[31:8]` above `k3`; in context that is `value[30:7]` above the exponent byte. -/
theorem mrg8ReplacesTheLowByte : Obligations.Mrg8ReplacesTheLowByte := by
  refine ⟨fun doubled k3 => ?_, fun value h => ?_⟩
  · refine (afterStage_mrg8_iff doubled k3 _).mpr ⟨mrg8 doubled k3, rfl, rfl, mrg8_extract_high doubled k3,
      mrg8_extract_low doubled k3, fun doubled' hd => ?_⟩
    rw [afterStage_mrg8_iff, mrg8_congr k3 hd]
    rfl
  · refine (afterConvert_iff value _).mpr ⟨_, _, invocation_k3 h, invocation_w h,
      (le_exponentByte_iff value).symm, ?_, ?_, ?_⟩
    · rw [getLsbD_append_within_high _ _ (by decide)]
      exact getLsbD_extract value (by decide)
    · rw [extract_append_within_high _ _ (by decide)]
      exact extract_extract value 7 24 1 7 (by decide)
    · rw [extract_append_within_high _ _ (by decide)]
      exact extract_extract value 7 24 8 16 (by decide)

/-- Settles O8: SWAP16 is the low half above the high half; in context the exponent byte comes to `s[23:16]`. -/
theorem swap16ExchangesTheHalves : Obligations.Swap16ExchangesTheHalves := by
  refine ⟨fun w => ?_, fun value h => ?_⟩
  · refine (afterStage_swap16_iff w _).mpr ⟨swap16 w, rfl, rfl, swap16_eq_xor w, swap16_eq_add w,
      swap16_extract_high w, swap16_extract_low w, ?_⟩
    rw [afterStage_swap16_iff, swap16_swap16]
    rfl
  · refine (afterConvert_iff value _).mpr ⟨_, _, invocation_k3 h, invocation_s h, ?_, ?_,
      s_wire_extract_exponent value, extract_append_low _ _⟩
    · rw [extract_append_within_high _ _ (by decide), extract_append_within_high _ _ (by decide)]
      exact extract_extract value 7 8 1 7 (by decide)
    · rw [getLsbD_append_within_high _ _ (by decide), getLsbD_append_within_high _ _ (by decide)]
      exact getLsbD_extract value (by decide)

/-- Settles O9: SHL7 is `s[24:0]` above seven zeros; in context `s[23:16]` is the exponent byte, which is at least 126. -/
theorem shl7DropsTheTopSevenBits : Obligations.Shl7DropsTheTopSevenBits := by
  refine ⟨fun s => ?_, fun value h => ?_⟩
  · exact (afterStage_shl7_iff s _).mpr ⟨shl7 s, rfl, shl7_extract_high s, shl7_extract_low s, toNat_shl7 s⟩
  · refine (afterConvert_iff value _).mpr ⟨_, _, _, invocation_k3 h, invocation_s h, invocation_x h, ?_, ?_, ?_, ?_,
      extract_append_low _ _⟩
    · rw [s_wire_extract_exponent]
      exact exponentByte_ne_zero value
    · rw [getLsbD_append_within_high _ _ (by decide), getLsbD_append_within_high _ _ (by decide),
        getLsbD_append_within_high _ _ (by decide)]
      exact getLsbD_extract value (by decide)
    · rw [extract_append_within_high _ _ (by decide), extract_append_within_high _ _ (by decide)]
      exact extract_append_low _ _
    · rw [extract_append_within_high _ _ (by decide)]
      exact extract_append_low _ _

/-- Settles O10: the pattern of the datum is the word it was cut from, and each field is a slice of that word. -/
theorem bitcastKeepsEveryBit : Obligations.BitcastKeepsEveryBit := fun x =>
  (afterStage_bitcast_iff x _).mpr ⟨rfl, (bitcast_eq x).symm, bitcastF32_sign_getLsbD x,
    bitcastF32_exponent_getLsbD x, bitcastF32_mantissa_getLsbD x⟩

end Sys2Proof.Proofs
end

section
/-! The proofs of the family 'other', first part: the decoder and the encoder of a row, and the fields of a source word
(30_encoding.md). -/

namespace Sys2Proof

/-! ## What the decoder of a row accepts and answers -/

theorem decodeRow_eq_ok_iff (rw : RowWord) (i : Instr) :
    decodeRow rw = .ok i ↔ (rw.nbits = rw.row.width ∧ rw.bits < 2 ^ rw.nbits) ∧ instrOfBits rw.row rw.bits = i := by
  rw [decodeRow]
  by_cases hw : rw.nbits = rw.row.width
  · by_cases hb : rw.bits < 2 ^ rw.nbits
    · rw [if_pos hw, if_pos hb, Except.ok.injEq]
      exact (and_iff_right ⟨hw, hb⟩).symm
    · rw [if_pos hw, if_neg hb]
      exact iff_of_false nofun fun h => hb h.1.2
  · rw [if_neg hw]
    exact iff_of_false nofun fun h => hw h.1.1

theorem exists_decodeRow_eq_ok_iff (rw : RowWord) :
    (∃ i, decodeRow rw = .ok i) ↔ rw.nbits = rw.row.width ∧ rw.bits < 2 ^ rw.nbits := by
  simp only [decodeRow_eq_ok_iff, exists_and_left, exists_eq', and_true]

theorem ofNat_toNat_self {n : ℕ} (x : BitVec n) : BitVec.ofNat n x.toNat = x := by
  rw [BitVec.ofNat_toNat, BitVec.setWidth_eq]

/-- The block's own decoder reads any string of 32 bits as CONVERT of that word (30_encoding.md R34). -/
theorem decodeBits_toNat (word : Word) : decodeBits 32 word.toNat = .ok (.convert word) :=
  (decodeRow_eq_ok_iff _ _).mpr ⟨⟨rfl, word.isLt⟩, congrArg decode (ofNat_toNat_self word)⟩

theorem decodeTableWord_of_le {nbits : ℕ} (h : nbits ≤ 32) (w : ℕ) :
    decodeTableWord nbits w = some (.convert (wordOfTableBits nbits w)) := by
  rw [decodeTableWord, if_pos h, decodeBits_toNat]

/-- A row is selected by bits exactly when its format is `WORD`: the masks are all zero (30_encoding.md R38). -/
theorem Row.selects_iff (r : Row) (word : Word) : r.selects word = true ↔ r = .convert := by
  have hmatch : (word &&& r.mask == r.matchBits) = true := by cases r <;> exact beq_iff_eq.mpr BitVec.and_zero
  rw [Row.selects, hmatch, Bool.and_true, beq_iff_eq]
  cases r <;> decide

/-! ## The fields of a source word (30_encoding.md R30) -/

theorem SourceFields.toWord_ofWord (value : Word) : (SourceFields.ofWord value).toWord = value := by
  rw [SourceFields.toWord, SourceFields.ofWord,
    BitVec.extractLsb'_append_extractLsb'_eq_extractLsb' (show 31 = 15 + 16 from rfl),
    BitVec.extractLsb'_append_extractLsb'_eq_extractLsb' (show 15 = 8 + 7 from rfl),
    BitVec.extractLsb'_append_extractLsb'_eq_extractLsb' (show 8 = 7 + 1 from rfl),
    BitVec.extractLsb'_append_extractLsb'_eq_extractLsb' (show 7 = 0 + 7 from rfl)]
  exact BitVec.extractLsb'_eq_self

theorem SourceFields.toWord_extract_h (f : SourceFields) : f.toWord.extractLsb' 31 1 = f.h := by
  rw [SourceFields.toWord, extract_append_within_high _ _ (by decide), extract_append_within_high _ _ (by decide),
    extract_append_within_high _ _ (by decide)]
  exact extract_append_high _ _

theorem SourceFields.toWord_extract_m (f : SourceFields) : f.toWord.extractLsb' 15 16 = f.m := by
  rw [SourceFields.toWord, extract_append_within_high _ _ (by decide), extract_append_within_high _ _ (by decide),
    extract_append_within_high _ _ (by decide)]
  exact extract_append_low _ _

theorem SourceFields.toWord_extract_l (f : SourceFields) : f.toWord.extractLsb' 8 7 = f.l := by
  rw [SourceFields.toWord, extract_append_within_high _ _ (by decide), extract_append_within_high _ _ (by decide)]
  exact extract_append_low _ _

theorem SourceFields.toWord_extract_s (f : SourceFields) : f.toWord.extractLsb' 7 1 = f.s := by
  rw [SourceFields.toWord, extract_append_within_high _ _ (by decide)]
  exact extract_append_low _ _

theorem SourceFields.toWord_extract_e (f : SourceFields) : f.toWord.extractLsb' 0 7 = f.e :=
  extract_append_low _ _

theorem SourceFields.ofWord_toWord (f : SourceFields) : SourceFields.ofWord f.toWord = f := by
  rw [SourceFields.ofWord, f.toWord_extract_h, f.toWord_extract_m, f.toWord_extract_l, f.toWord_extract_s,
    f.toWord_extract_e]

/-! ## Encoding an instruction and decoding its bits -/

theorem encodesInRow (i : Instr) : Laws.EncodesInRow.Statement i := by
  cases i <;> exact ⟨rfl, rfl, BitVec.isLt _⟩

theorem ofNat_toNat_div {n : ℕ} (x : BitVec n) (a l : ℕ) : BitVec.ofNat l (x.toNat / 2 ^ a) = x.extractLsb' a l := by
  rw [← Nat.shiftRight_eq_div_pow]
  rfl

theorem instrOfBits_encode (i : Instr) : instrOfBits i.row (encode i).bits = i := by
  cases i with
  | convert value =>
    have h := (ofNat_toNat_self _).trans (SourceFields.toWord_ofWord value)
    exact congrArg Instr.convert h
  | mrg8 doubled k3 =>
    have hdoubled : BitVec.ofNat 32 (k3 ++ doubled).toNat = doubled :=
      (BitVec.ofNat_toNat _ _).trans BitVec.setWidth_append_eq_right
    have hk3 : BitVec.ofNat 8 ((k3 ++ doubled).toNat / 2 ^ 32) = k3 :=
      (ofNat_toNat_div _ _ _).trans (extract_append_high _ _)
    exact congrArg₂ Instr.mrg8 hdoubled hk3
  | _ => exact congrArg _ (ofNat_toNat_self _)

theorem encode_instrOfBits (r : Row) (x : BitVec r.width) :
    encode (instrOfBits r x.toNat) = RowWord.mk r r.width x.toNat := by
  cases r with
  | convert =>
    have h : (SourceFields.ofWord (BitVec.ofNat 32 x.toNat)).toWord = x :=
      (SourceFields.toWord_ofWord _).trans (ofNat_toNat_self _)
    exact congrArg (fun word => RowWord.mk .convert 32 (BitVec.toNat word)) h
  | mrg8 =>
    have h : BitVec.ofNat 8 (x.toNat / 2 ^ 32) ++ BitVec.ofNat 32 x.toNat = x := by
      rw [ofNat_toNat_div, BitVec.ofNat_toNat, BitVec.setWidth_eq_extractLsb' (by decide)]
      exact BitVec.extractLsb'_append_extractLsb'
    exact congrArg (fun word => RowWord.mk .mrg8 40 (BitVec.toNat word)) h
  | _ => exact congrArg (fun word => RowWord.mk _ _ (BitVec.toNat word)) (ofNat_toNat_self _)

end Sys2Proof

namespace Sys2Proof.Proofs

/-- Settles O26: row by row, the operand bits are the operand's own; MRG8's two operands are the two parts of its bits
(log 7), and CONVERT's word is put together from its fields. -/
theorem rowDecodeInvertsEncode : Obligations.RowDecodeInvertsEncode := by
  refine ⟨fun i => ?_, fun rw i h => ?_⟩
  · obtain ⟨hrow, hnbits, hbits⟩ := encodesInRow i
    refine ⟨by cases i <;> rfl, hrow, (decodeRow_eq_ok_iff _ _).mpr ⟨⟨?_, ?_⟩, ?_⟩⟩
    · rw [hrow, hnbits]
    · rw [hnbits]
      exact hbits
    · rw [hrow, instrOfBits_encode]
  · obtain ⟨⟨hnbits, hbits⟩, rfl⟩ := (decodeRow_eq_ok_iff rw i).mp h
    rw [hnbits] at hbits
    have henc := encode_instrOfBits rw.row (BitVec.ofNatLT rw.bits hbits)
    rw [BitVec.toNat_ofNatLT] at henc
    rw [henc, ← hnbits]

/-- Settles O27: adjacent slices of the word put together are the word, and each slice is the field at its place. -/
theorem sourceFieldsTileTheWord : Obligations.SourceFieldsTileTheWord := by
  refine ⟨SourceFields.toWord_ofWord, SourceFields.ofWord_toWord, fun f => ?_⟩
  refine ⟨?_, fun i hi => ?_, fun i hi => ?_, ?_, fun i hi => ?_⟩
  · rw [← f.toWord_extract_h, Machine.getLsbD_extract _ (by decide)]
  · rw [← f.toWord_extract_m, Machine.getLsbD_extract _ hi]
  · rw [← f.toWord_extract_l, Machine.getLsbD_extract _ hi]
  · rw [← f.toWord_extract_s, Machine.getLsbD_extract _ (by decide)]
  · rw [← f.toWord_extract_e, Machine.getLsbD_extract _ hi, Nat.zero_add]

/-- Settles O28: a bit string decodes exactly when both checks of the row's decoder pass. -/
theorem onlyExactWidthsDecode : Obligations.OnlyExactWidthsDecode := by
  refine ⟨exists_decodeRow_eq_ok_iff, fun nbits bits => ?_⟩
  refine (exists_decodeRow_eq_ok_iff (RowWord.mk .convert nbits bits)).trans ?_
  exact and_congr_right fun (h : nbits = 32) => by rw [h]

/-- Settles O29: each word is evaluated by the decoder. -/
theorem sampleWordsDecode : Obligations.SampleWordsDecode := by
  refine ⟨?_, ?_, ?_, ?_, ?_, rfl, rfl⟩ <;> rw [decodeTableWord_of_le le_rfl] <;> rfl

end Sys2Proof.Proofs
end

section
/-! The proofs of the family 'other', second part: the result of CONVERT field by field, the zero set, and the invariant
(40_convert.md section 4, 42_reconstruct.md section 5, 10_state.md section 3). -/

namespace Sys2Proof.Machine

open Sys2Proof.Safety

/-! ## The zero set -/

theorem extract_31_eq_append (value : Word) :
    value.extractLsb' 0 31 = value.extractLsb' 15 16 ++ value.extractLsb' 8 7 ++ value.extractLsb' 0 8 := by
  rw [BitVec.extractLsb'_append_extractLsb'_eq_extractLsb' (show 15 = 8 + 7 from rfl)]
  exact (BitVec.extractLsb'_append_extractLsb'_eq_extractLsb' (show 8 = 0 + 8 from rfl)).symm

theorem not_nonZeroPath_iff (value : Word) : ¬ NonZeroPath value ↔ value.extractLsb' 0 31 = 0 := not_not

theorem not_nonZeroPath_iff_word (value : Word) :
    ¬ NonZeroPath value ↔ value = 0x00000000#32 ∨ value = 0x80000000#32 := by
  have hlt := value.isLt
  rw [not_nonZeroPath_iff, ← BitVec.toNat_inj, ← BitVec.toNat_inj, ← BitVec.toNat_inj, BitVec.extractLsb'_toNat,
    Nat.shiftRight_zero]
  change value.toNat % 2147483648 = 0 ↔ value.toNat = 0 ∨ value.toNat = 2147483648
  omega

theorem invocation_z_eq_true_iff (value : Word) : (invocation value).1.z = some true ↔ ¬ NonZeroPath value := by
  rw [invocation_z, Option.some_inj, decide_eq_true_iff, nonZeroPath_iff, not_not]

theorem nonZeroPath_of_extract_ne {value : Word} {a l : ℕ} (hal : a + l ≤ 31) (h : value.extractLsb' a l ≠ 0) :
    NonZeroPath value := by
  intro hz
  apply h
  have hsub := extract_extract value 0 31 a l hal
  rw [hz, Nat.zero_add] at hsub
  rw [← hsub]
  exact BitVec.extractLsb'_zero

/-! ## The result outside the zero set, field by field -/

theorem convert_eq_append {value : Word} (h : NonZeroPath value) :
    convert value = value.extractLsb' 7 1 ++ exponentByte value ++ value.extractLsb' 15 16 ++ 0#7 := by
  rw [convert_of_nonzero h, x_wire_eq]

theorem convert_extract_sign {value : Word} (h : NonZeroPath value) :
    (convert value).extractLsb' 31 1 = value.extractLsb' 7 1 := by
  rw [convert_eq_append h, extract_append_within_high _ _ (by decide), extract_append_within_high _ _ (by decide)]
  exact extract_append_high _ _

theorem convert_extract_exponent {value : Word} (h : NonZeroPath value) :
    (convert value).extractLsb' 23 8 = exponentByte value := by
  rw [convert_eq_append h, extract_append_within_high _ _ (by decide), extract_append_within_high _ _ (by decide)]
  exact extract_append_low _ _

theorem convert_extract_kept {value : Word} (h : NonZeroPath value) :
    (convert value).extractLsb' 7 16 = value.extractLsb' 15 16 := by
  rw [convert_eq_append h, extract_append_within_high _ _ (by decide)]
  exact extract_append_low _ _

theorem convert_extract_low {value : Word} (h : NonZeroPath value) : (convert value).extractLsb' 0 7 = 0 := by
  rw [convert_eq_append h]
  exact extract_append_low _ _

theorem convert_extract_mantissa {value : Word} (h : NonZeroPath value) :
    (convert value).extractLsb' 0 23 = value.extractLsb' 15 16 ++ 0#7 := by
  have hlow : (convert value).extractLsb' 0 7 = 0#7 := convert_extract_low h
  rw [← convert_extract_kept h, ← hlow]
  exact (BitVec.extractLsb'_append_extractLsb'_eq_extractLsb' (show 7 = 0 + 7 from rfl)).symm

theorem convert_extract_magnitude {value : Word} (h : NonZeroPath value) :
    (convert value).extractLsb' 0 31 = exponentByte value ++ (value.extractLsb' 15 16 ++ 0#7) := by
  rw [← convert_extract_exponent h, ← convert_extract_mantissa h]
  exact (BitVec.extractLsb'_append_extractLsb'_eq_extractLsb' (show 23 = 0 + 23 from rfl)).symm

theorem exponentByte_bounds (value : Word) : 0x7E#8 ≤ exponentByte value ∧ exponentByte value ≤ 0xFD#8 :=
  sub82_bounds (shr1_le _)

/-! ## The result is zero on the fast path and nowhere else -/

theorem not_nonZeroPath_of_convert_exponent {value : Word} (h : (convert value).extractLsb' 23 8 = 0x00#8) :
    ¬ NonZeroPath value :=
  fun hn => exponentByte_ne_zero value ((convert_extract_exponent hn).symm.trans h)

theorem convert_eq_zero_iff (value : Word) : convert value = 0x00000000#32 ↔ ¬ NonZeroPath value := by
  refine ⟨fun h => not_nonZeroPath_of_convert_exponent ?_, convert_of_zero⟩
  rw [h]
  rfl

theorem convert_legal (value : Word) : LegalResult (convert value) := by
  by_cases h : NonZeroPath value
  · refine Or.inr ⟨?_, ?_, convert_extract_low h⟩
    · rw [convert_extract_exponent h]
      exact (exponentByte_bounds value).1
    · rw [convert_extract_exponent h]
      exact (exponentByte_bounds value).2
  · exact Or.inl (convert_of_zero h)

/-- Whatever word stands on the port, the block without a stage shown beside it is in the invariant. -/
theorem inv_settled (value : Word) : Inv (settled value) where
  legal := convert_legal value
  zero := (invocation_z_eq_true_iff value).trans (convert_eq_zero_iff value).symm
  quiet := rfl

/-! ## Which bits of the word the invocation reads -/

/-- DBL is the only stage that reads the word (10_state.md R11). -/
theorem invocation_congr {value value' : Word} (h : dbl value' = dbl value) : invocation value' = invocation value := by
  rw [invocation, h, invocation]

/-- Outside the zero set the result depends on bits 7:0 and 30:15 alone (40_convert.md R45). -/
theorem convert_congr {value value' : Word} (h : NonZeroPath value) (h' : NonZeroPath value')
    (hs : value'.extractLsb' 7 1 = value.extractLsb' 7 1) (he : value'.extractLsb' 0 7 = value.extractLsb' 0 7)
    (hm : value'.extractLsb' 15 16 = value.extractLsb' 15 16) : convert value' = convert value := by
  rw [convert_eq_append h, convert_eq_append h', hs, hm, exponentByte_eq, exponentByte_eq, he]

end Sys2Proof.Machine

namespace Sys2Proof.Proofs

open Sys2Proof.Machine Sys2Proof.Safety

/-- Settles O37: presenting a word, and a step, leave a settled block, and every settled block is in the invariant. -/
theorem stepKeepsTheInvariant : Obligations.StepKeepsTheInvariant := by
  have hstep : ∀ s t : State, step s = .next t → Inv t ∧ t.value_i = s.value_i := by
    rintro s t h
    rw [step_eq_settled] at h
    cases h
    exact ⟨inv_settled s.value_i, rfl⟩
  exact fun s _ => ⟨fun t h => (hstep s t h).1, fun v => ⟨inv_settled v, hstep (s.present v)⟩⟩

/-- Settles O38. -/
theorem stepEstablishesTheInvariant : Obligations.StepEstablishesTheInvariant := fun s =>
  ⟨settled s.value_i, step_eq_settled s, inv_settled s.value_i⟩

/-- Settles O39: the reset state is the settled block with the zero word on its port. -/
theorem resetIsSettled : Obligations.ResetIsSettled :=
  ⟨inv_settled 0x00000000#32, rfl, rfl, (afterConvert_iff _ _).mpr ⟨rfl, rfl⟩⟩

/-- Settles O14. -/
theorem zeroPathDrivesNoLaterWire : Obligations.ZeroPathDrivesNoLaterWire := fun value h =>
  (afterConvert_iff value _).mpr ⟨congrArg Prod.fst (invocation_of_zero h), convert_of_zero h⟩

/-- Settles O15: a zero exponent field puts the word in the zero set, since the exponent byte is never zero outside it. -/
theorem zeroSetIsExactlyTwoWords : Obligations.ZeroSetIsExactlyTwoWords := by
  refine ⟨fun value => (afterConvert_iff value _).mpr ⟨?_, ?_, ?_, ?_, ?_⟩, ?_⟩
  · exact (invocation_z_eq_true_iff value).trans (not_nonZeroPath_iff value)
  · exact (invocation_z_eq_true_iff value).trans (not_nonZeroPath_iff_word value)
  · rw [settled_result_o, convert_eq_zero_iff, nonZeroPath_iff, not_not, dbl_eq_shift]
  · exact fun h => convert_of_zero (not_nonZeroPath_of_convert_exponent h)
  · intro (h : convert value = 0x80000000#32)
    have hz : ¬ NonZeroPath value := not_nonZeroPath_of_convert_exponent (by rw [h]; rfl)
    exact absurd ((convert_of_zero hz).symm.trans h) (by decide)
  · rintro value (rfl | rfl) <;> exact (afterConvert_iff _ _).mpr (by decide)

/-- Settles O17: each field of the result is read off the word of step 7. -/
theorem convertMeetsTheClosedForm : Obligations.ConvertMeetsTheClosedForm := by
  refine fun value => (afterConvert_iff value _).mpr ?_
  split_ifs with hz
  · exact convert_of_zero (not_not.mpr hz)
  · have h : NonZeroPath value := hz
    exact ⟨convert_extract_sign h, (convert_extract_exponent h).trans (exponentByte_eq value), convert_extract_kept h,
      convert_extract_low h⟩

/-- Settles O18: DBL loses bit 31; outside the zero set the result is made of the other three fields; a word with these fields
zero is in the zero set exactly when its test-only bits are zero too. -/
theorem deadAndTestOnlyBits : Obligations.DeadAndTestOnlyBits := by
  refine ⟨fun value => ?_, fun value value' hbits hne => ?_, fun value hm h8 => ?_⟩
  · have hinv := invocation_congr (dbl_flip_bit31 value)
    exact (afterConvert_iff value _).mpr fun st =>
      ⟨settled (value ^^^ 0x80000000#32), exec_convert st _, (congrArg Prod.snd hinv :), (congrArg Prod.fst hinv :)⟩
  · have hslice : ∀ a l, a + l ≤ 8 ∨ 15 ≤ a ∧ a + l ≤ 31 → value'.extractLsb' a l = value.extractLsb' a l := by
      intro a l hal
      apply eq_of_bits
      intro i hi
      rw [getLsbD_extract _ hi, getLsbD_extract _ hi]
      exact hbits _ (by omega)
    have hm := hslice 15 16 (by decide)
    have h8 := hslice 0 8 (by decide)
    have hnz : NonZeroPath value ∧ NonZeroPath value' := by
      rcases hne with hne | hne
      · exact ⟨nonZeroPath_of_extract_ne (by decide) hne, nonZeroPath_of_extract_ne (by decide) (hm ▸ hne)⟩
      · exact ⟨nonZeroPath_of_extract_ne (by decide) hne, nonZeroPath_of_extract_ne (by decide) (h8 ▸ hne)⟩
    exact (afterConvert_iff value _).mpr ((afterConvert_iff value' _).mpr
      (convert_congr hnz.1 hnz.2 (hslice 7 1 (by decide)) (hslice 0 7 (by decide)) hm))
  · refine (afterConvert_iff value _).mpr ?_
    split_ifs with hl
    · have hz : value.extractLsb' 0 31 = 0 := by
        rw [extract_31_eq_append, hm, hl, h8]
        rfl
      exact convert_of_zero (not_not.mpr hz)
    · have hs := extract_extract value 0 8 7 1 (by decide)
      have he := extract_extract value 0 8 0 7 (by decide)
      rw [h8] at hs he
      rw [settled_result_o, convert_eq_append (nonZeroPath_of_extract_ne (by decide) hl), exponentByte_eq, ← hs, ← he, hm]
      rfl

end Sys2Proof.Proofs
end

section
/-! The proofs of the family 'other', third part: the exponent byte, the wires bit by bit, and the result as a datum
(41_extract_xor.md section 5, 30_encoding.md R32, 42_reconstruct.md sections 5 and 6). -/

namespace Sys2Proof.Machine

open Sys2Proof.Safety

/-! ## The exponent transform (41_extract_xor.md R54) -/

/-- Flipping the top bit of the exponent field adds `0x40` and loses the carry. -/
theorem xor_40_eq_add (e : BitVec 7) : e ^^^ 0x40#7 = e + 0x40#7 := by
  revert e
  decide

theorem toNat_exponentByte_of_le {value : Word} (h : value.extractLsb' 0 7 ≤ 0x3F#7) :
    (exponentByte value).toNat = (value.extractLsb' 0 7).toNat + 190 := by
  have hle : (value.extractLsb' 0 7).toNat ≤ 63 := h
  rw [toNat_exponentByte, xor_40_eq_add, BitVec.toNat_add, BitVec.toNat_ofNat]
  omega

theorem toNat_exponentByte_of_ge {value : Word} (h : 0x40#7 ≤ value.extractLsb' 0 7) :
    (exponentByte value).toNat = (value.extractLsb' 0 7).toNat + 62 := by
  have hge : 64 ≤ (value.extractLsb' 0 7).toNat := h
  have hlt := (value.extractLsb' 0 7).isLt
  rw [toNat_exponentByte, xor_40_eq_add, BitVec.toNat_add, BitVec.toNat_ofNat]
  omega

theorem exponentByte_inj (value value' : Word) :
    exponentByte value = exponentByte value' ↔ value.extractLsb' 0 7 = value'.extractLsb' 0 7 := by
  rw [← BitVec.toNat_inj, toNat_exponentByte, toNat_exponentByte, Nat.add_right_cancel_iff, BitVec.toNat_inj,
    BitVec.xor_left_inj]

/-- The exponent field that an exponent byte comes from. -/
def exponentFieldOf (k : Byte) : BitVec 7 := (k - 0x7E#8).setWidth 7 ^^^ 0x40#7

theorem exponentByte_eq_of_field {value : Word} {k : Byte} (hlow : 0x7E#8 ≤ k) (hhigh : k ≤ 0xFD#8)
    (h : value.extractLsb' 0 7 = exponentFieldOf k) : exponentByte value = k := by
  have hl : 126 ≤ k.toNat := hlow
  have hh : k.toNat ≤ 253 := hhigh
  apply BitVec.eq_of_toNat_eq
  rw [toNat_exponentByte, h, exponentFieldOf, BitVec.xor_assoc, BitVec.xor_self, BitVec.xor_zero, BitVec.toNat_setWidth,
    BitVec.toNat_sub, BitVec.toNat_ofNat]
  omega

/-- There is a word with any bits at the places that DBL keeps. -/
theorem exists_word (u : BitVec 24) (e : BitVec 7) :
    ∃ value : Word, value.extractLsb' 7 24 = u ∧ value.extractLsb' 0 7 = e := by
  refine ⟨0#1 ++ u ++ e, ?_, extract_append_low _ _⟩
  rw [extract_append_within_high _ _ (by decide)]
  exact extract_append_low _ _

/-- Outside the zero set any exponent field occurs. -/
theorem exists_nonZeroPath_with_field (e : BitVec 7) : ∃ value : Word, NonZeroPath value ∧ value.extractLsb' 0 7 = e := by
  obtain ⟨value, hu, he⟩ := exists_word 1#24 e
  exact ⟨value, nonZeroPath_of_extract_ne (a := 7) (l := 24) (by decide) (by rw [hu]; decide), he⟩

/-! ## The wires as slices of the word (30_encoding.md R32) -/

theorem dbl_eq_slices (value : Word) :
    dbl value =
      value.extractLsb' 15 16 ++ value.extractLsb' 8 7 ++ value.extractLsb' 7 1 ++ value.extractLsb' 0 7 ++ 0#1 := by
  rw [dbl_eq_append, BitVec.extractLsb'_append_extractLsb'_eq_extractLsb' (show 15 = 8 + 7 from rfl),
    BitVec.extractLsb'_append_extractLsb'_eq_extractLsb' (show 8 = 7 + 1 from rfl),
    BitVec.extractLsb'_append_extractLsb'_eq_extractLsb' (show 7 = 0 + 7 from rfl)]

theorem flippedExponent_eq_slices (value : Word) :
    value.extractLsb' 0 7 ^^^ 0x40#7 = ~~~ value.extractLsb' 6 1 ++ value.extractLsb' 0 6 := by
  have hsplit := BitVec.extractLsb'_append_extractLsb'_eq_extractLsb' (x := value) (len₂ := 1) (show 6 = 0 + 6 from rfl)
  have hmask : (0x40#7 : BitVec 7) = BitVec.allOnes 1 ++ 0#6 := rfl
  rw [← hsplit, hmask, BitVec.xor_append, BitVec.xor_allOnes, BitVec.xor_zero]

theorem upper_eq_slices (value : Word) :
    value.extractLsb' 7 24 = value.extractLsb' 15 16 ++ value.extractLsb' 8 7 ++ value.extractLsb' 7 1 := by
  rw [BitVec.extractLsb'_append_extractLsb'_eq_extractLsb' (show 15 = 8 + 7 from rfl),
    BitVec.extractLsb'_append_extractLsb'_eq_extractLsb' (show 8 = 7 + 1 from rfl)]

theorem k2_eq_slices (value : Word) :
    shr1 (xor80 (xtr8 (dbl value))) = 0#1 ++ ~~~ value.extractLsb' 6 1 ++ value.extractLsb' 0 6 := by
  rw [k2_wire_eq, flippedExponent_eq_slices, BitVec.setWidth_eq_append (by decide)]
  exact (BitVec.append_assoc ..).symm

/-! ## The result as a datum (20_memory.md R24; class names and the number: log 11) -/

theorem toNat_append_eq_add {n m : ℕ} (x : BitVec n) (y : BitVec m) : (x ++ y).toNat = x.toNat * 2 ^ m + y.toNat := by
  rw [BitVec.toNat_append, ← Nat.shiftLeft_add_eq_or_of_lt y.isLt, Nat.shiftLeft_eq]

theorem bitcastF32_bitsU32 (f : F32) : bitcastF32 (bitsU32 f) = f := by
  have hsign : (bitsU32 f).extractLsb' 31 1 = f.sign := by
    rw [bitsU32, extract_append_within_high _ _ (by decide)]
    exact extract_append_high _ _
  have hexponent : (bitsU32 f).extractLsb' 23 8 = f.exponent := by
    rw [bitsU32, extract_append_within_high _ _ (by decide)]
    exact extract_append_low _ _
  have hmantissa : (bitsU32 f).extractLsb' 0 23 = f.mantissa := extract_append_low _ _
  rw [bitcastF32, hsign, hexponent, hmantissa]

theorem classify_of_exponent {f : F32} (h0 : f.exponent ≠ 0x00#8) (h255 : f.exponent ≠ 0xFF#8) : f.classify = .normal := by
  rw [F32.classify, if_neg h0, if_neg h255]

theorem number_of_normal {f : F32} (h : f.classify = .normal) :
    f.number =
      some ((-1) ^ f.sign.toNat * 2 ^ ((f.exponent.toNat : ℤ) - 127) * (1 + (f.mantissa.toNat : ℚ) / 2 ^ 23)) := by
  rw [F32.number, h]

/-- Outside the zero set the datum is the sign bit, the exponent byte, and the kept bits with seven zeros below them. -/
theorem bitcastF32_convert {value : Word} (h : NonZeroPath value) :
    bitcastF32 (convert value) = F32.mk (value.extractLsb' 7 1) (exponentByte value) (value.extractLsb' 15 16 ++ 0#7) := by
  rw [bitcastF32, convert_extract_sign h, convert_extract_exponent h, convert_extract_mantissa h]

theorem classify_convert_of_nonzero {value : Word} (h : NonZeroPath value) :
    (bitcastF32 (convert value)).classify = .normal := by
  rw [bitcastF32_convert h]
  refine classify_of_exponent (exponentByte_ne_zero value) fun (h255 : exponentByte value = 0xFF#8) => ?_
  have hle := (exponentByte_bounds value).2
  rw [h255] at hle
  exact absurd hle (by decide)

theorem classify_convert_of_zero {value : Word} (h : ¬ NonZeroPath value) :
    (bitcastF32 (convert value)).classify = .zero := by
  rw [convert_of_zero h]
  decide

theorem toNat_kept_append (value : Word) :
    (value.extractLsb' 15 16 ++ 0#7).toNat = (value.extractLsb' 15 16).toNat * 2 ^ 7 := by
  rw [toNat_append_eq_add, BitVec.toNat_zero, Nat.add_zero]

theorem number_convert_of_nonzero {value : Word} (h : NonZeroPath value) :
    (bitcastF32 (convert value)).number =
      some ((-1) ^ (value.extractLsb' 7 1).toNat *
        2 ^ (((((value.extractLsb' 0 7 ^^^ 0x40#7).toNat + 126 : ℕ) : ℤ)) - 127) *
        (1 + ((value.extractLsb' 15 16).toNat : ℚ) / 2 ^ 16)) := by
  rw [number_of_normal (classify_convert_of_nonzero h), bitcastF32_convert h, toNat_exponentByte, toNat_kept_append]
  have hscale (m : ℕ) : ((m * 2 ^ 7 : ℕ) : ℚ) / 2 ^ 23 = (m : ℚ) / 2 ^ 16 := by
    push_cast
    ring
  rw [hscale]

theorem number_convert_of_zero {value : Word} (h : ¬ NonZeroPath value) :
    (bitcastF32 (convert value)).number = some 0 := by
  rw [convert_of_zero h]
  rfl

theorem magnitude_bounds {value : Word} (h : NonZeroPath value) :
    0x3F000000 ≤ ((convert value).extractLsb' 0 31).toNat ∧ ((convert value).extractLsb' 0 31).toNat ≤ 0x7EFFFF80 := by
  obtain ⟨hlow, hhigh⟩ := exponentByte_bounds value
  have hl : 126 ≤ (exponentByte value).toNat := hlow
  have hh : (exponentByte value).toNat ≤ 253 := hhigh
  have hm := (value.extractLsb' 15 16).isLt
  rw [convert_extract_magnitude h, toNat_append_eq_add, toNat_kept_append]
  omega

/-! ## Counting the results (40_convert.md R45) -/

/-- The word with these fields that the result depends on: sign, kept mantissa bits, exponent field. One test-only bit is set,
so that the word is outside the zero set whatever they are. -/
def markedWord (p : BitVec 1 × BitVec 16 × BitVec 7) : Word := (SourceFields.mk 0#1 p.2.1 1#7 p.1 p.2.2).toWord

theorem nonZeroPath_markedWord (p : BitVec 1 × BitVec 16 × BitVec 7) : NonZeroPath (markedWord p) := by
  refine nonZeroPath_of_extract_ne (a := 8) (l := 7) (by decide) ?_
  rw [markedWord, SourceFields.toWord_extract_l]
  exact (by decide : (1#7 : BitVec 7) ≠ 0)

theorem convert_eq_convert_markedWord {value : Word} (h : NonZeroPath value) :
    convert (markedWord (value.extractLsb' 7 1, value.extractLsb' 15 16, value.extractLsb' 0 7)) = convert value :=
  convert_congr h (nonZeroPath_markedWord _) (SourceFields.toWord_extract_s _) (SourceFields.toWord_extract_e _)
    (SourceFields.toWord_extract_m _)

/-- The fields that the result depends on can be read back from it. -/
theorem fields_eq_of_convert_eq {value value' : Word} (h : NonZeroPath value) (h' : NonZeroPath value')
    (heq : convert value = convert value') :
    value.extractLsb' 7 1 = value'.extractLsb' 7 1 ∧ value.extractLsb' 15 16 = value'.extractLsb' 15 16 ∧
      value.extractLsb' 0 7 = value'.extractLsb' 0 7 := by
  refine ⟨?_, ?_, (exponentByte_inj value value').mp ?_⟩
  · rw [← convert_extract_sign h, heq, convert_extract_sign h']
  · rw [← convert_extract_kept h, heq, convert_extract_kept h']
  · rw [← convert_extract_exponent h, heq, convert_extract_exponent h']

theorem convert_markedWord_injective : Function.Injective fun p => convert (markedWord p) := by
  rintro ⟨s, m, e⟩ ⟨s', m', e'⟩ heq
  obtain ⟨hs, hm, he⟩ := fields_eq_of_convert_eq (nonZeroPath_markedWord _) (nonZeroPath_markedWord _) heq
  rw [markedWord, markedWord, SourceFields.toWord_extract_s, SourceFields.toWord_extract_s] at hs
  rw [markedWord, markedWord, SourceFields.toWord_extract_m, SourceFields.toWord_extract_m] at hm
  rw [markedWord, markedWord, SourceFields.toWord_extract_e, SourceFields.toWord_extract_e] at he
  exact Prod.ext hs (Prod.ext hm he)

theorem results_eq_insert_range :
    {r : Word | ∃ value : Word, AfterConvert value fun t => t.result_o = r} =
      insert 0x00000000#32 (Set.range fun p => convert (markedWord p)) := by
  ext r
  simp only [Set.mem_ofPred_eq, afterConvert_iff, settled_result_o, Set.mem_insert_iff, Set.mem_range]
  constructor
  · rintro ⟨value, rfl⟩
    by_cases h : NonZeroPath value
    · exact Or.inr ⟨_, convert_eq_convert_markedWord h⟩
    · exact Or.inl (convert_of_zero h)
  · rintro (rfl | ⟨p, rfl⟩)
    · exact ⟨0x00000000#32, by decide⟩
    · exact ⟨markedWord p, rfl⟩

theorem natCard_bitVec (n : ℕ) : Nat.card (BitVec n) = 2 ^ n :=
  (Nat.card_congr BitVec.equivFin.toEquiv).trans (Nat.card_fin _)

end Sys2Proof.Machine

namespace Sys2Proof.Proofs

open Sys2Proof.Machine Sys2Proof.Safety

/-- Settles O21: on each half of the field, flipping its top bit and adding 126 is one addition that does not carry. -/
theorem exponentTransform : Obligations.ExponentTransform := by
  refine ⟨fun value h => ?_, fun value value' h h' => ?_, fun k => ⟨?_, ?_⟩⟩
  · refine (afterConvert_iff value _).mpr
      ⟨exponentByte value, invocation_k3 h, exponentByte_eq value, fun hle => ?_, fun hge => ?_⟩
    · have hk := toNat_exponentByte_of_le hle
      refine ⟨hk, ?_, (exponentByte_bounds value).2⟩
      rw [BitVec.le_def, hk]
      exact Nat.le_add_left 190 _
    · have hk := toNat_exponentByte_of_ge hge
      have hlt := (value.extractLsb' 0 7).isLt
      refine ⟨hk, (exponentByte_bounds value).1, ?_⟩
      rw [BitVec.le_def, hk]
      exact Nat.add_le_add_right (Nat.le_of_lt_succ hlt) 62
  · refine (afterConvert_iff value _).mpr ((afterConvert_iff value' _).mpr ?_)
    rw [settled_wires, settled_wires, invocation_k3 h, invocation_k3 h', Option.some_inj, exponentByte_inj]
  · rintro ⟨value, h, hk⟩
    have hk3 := ((afterConvert_iff value _).mp hk).symm.trans (invocation_k3 h)
    rw [Option.some_inj.mp hk3]
    exact exponentByte_bounds value
  · rintro ⟨hlow, hhigh⟩
    obtain ⟨value, h, he⟩ := exists_nonZeroPath_with_field (exponentFieldOf k)
    refine ⟨value, h, (afterConvert_iff value _).mpr ?_⟩
    rw [settled_wires, invocation_k3 h, exponentByte_eq_of_field hlow hhigh he]

/-- Settles O22: each wire is put together from slices of the word, and each slice is cut further at the table's places. -/
theorem bitFlowOfTheWires : Obligations.BitFlowOfTheWires := by
  refine fun value h => (afterConvert_iff value _).mpr ⟨_, _, _, _, _, _, _, exponentByte value,
    congrArg Prod.fst (invocation_of_nonzero h), dbl_eq_slices value, k0_wire_eq value, ?_, k2_eq_slices value, ?_,
    shr1_le _, ?_, ?_, x_wire_eq value⟩
  · rw [k1_wire_eq, flippedExponent_eq_slices]
  · rw [toNat_exponentByte, k2_wire_eq, BitVec.toNat_setWidth_of_le (by decide)]
  · rw [w_wire_eq, upper_eq_slices]
  · rw [s_wire_eq, BitVec.extractLsb'_append_extractLsb'_eq_extractLsb' (show 8 = 7 + 1 from rfl)]

/-- Settles O19: the zero pattern, and one result for each choice of the 24 bits that the result depends on. -/
theorem convertHasExactly16777217Results : Obligations.ConvertHasExactly16777217Results := by
  have hzero : (0x00000000#32 : Word) ∉ Set.range fun p => convert (markedWord p) := by
    rintro ⟨p, hp⟩
    exact (convert_eq_zero_iff _).mp hp (nonZeroPath_markedWord p)
  rw [Obligations.ConvertHasExactly16777217Results, results_eq_insert_range, Set.ncard_insert_of_notMem hzero,
    Set.ncard_range_of_injective convert_markedWord_injective, Nat.card_prod, Nat.card_prod, natCard_bitVec, natCard_bitVec,
    natCard_bitVec]
  norm_num

/-- Settles O20: the two views of a pattern are inverse, the wire `x` is the result, and its class is zero or normal. -/
theorem resultPatternRoundTrips : Obligations.ResultPatternRoundTrips := by
  refine ⟨bitcast_eq, bitcastF32_bitsU32, fun value => (afterConvert_iff value _).mpr ?_⟩
  have hbits : bitsU32 (bitcastF32 (convert value)) = convert value := bitcast_eq _
  rw [settled_result_o, settled_wires, hbits]
  by_cases h : NonZeroPath value
  · rw [invocation_z_eq_true_iff, classify_convert_of_nonzero h, invocation_x h, convert_eq_append h]
    exact ⟨fun hz => absurd h hz, fun _ => rfl, nofun⟩
  · rw [(invocation_z_eq_true_iff value).mpr h, classify_convert_of_zero h, convert_of_zero h]
    exact ⟨fun _ => rfl, nofun, nofun⟩

/-- Settles O23: outside the zero set the exponent byte decides the class and bounds the magnitude. -/
theorem everyResultIsZeroOrNormal : Obligations.EveryResultIsZeroOrNormal := by
  refine ⟨fun value => (afterConvert_iff value _).mpr ⟨?_, fun hne => ?_⟩, ?_⟩
  · exact (not_nonZeroPath_iff_word value).symm.trans (convert_eq_zero_iff value).symm
  · have h : NonZeroPath value := by_contra fun hz => hne (convert_of_zero hz)
    obtain ⟨hlow, hhigh⟩ := exponentByte_bounds value
    obtain ⟨hmlow, hmhigh⟩ := magnitude_bounds h
    rw [settled_result_o]
    refine ⟨classify_convert_of_nonzero h, ?_, ?_, hmlow, hmhigh⟩
    · rw [bitcastF32_convert h]
      exact hlow
    · rw [bitcastF32_convert h]
      exact hhigh
  · rintro r (rfl | rfl | rfl | rfl)
    · exact ⟨0x80000040#32, (afterConvert_iff _ _).mpr (by decide)⟩
    · exact ⟨0x800000C0#32, (afterConvert_iff _ _).mpr (by decide)⟩
    · exact ⟨0x7FFF803F#32, (afterConvert_iff _ _).mpr (by decide)⟩
    · exact ⟨0x7FFF80BF#32, (afterConvert_iff _ _).mpr (by decide)⟩

/-- Settles O24: on the two paths, the number of the zero pattern and the number of a normal datum. -/
theorem numberOfAResult : Obligations.NumberOfAResult := by
  refine fun value => (afterConvert_iff value _).mpr ?_
  split_ifs with hz
  · exact number_convert_of_zero (not_not.mpr hz)
  · exact number_convert_of_nonzero hz

/-- Settles O25: the decoder reads no bit, every mask is zero and only CONVERT's format is `WORD`. -/
theorem everyWordSelectsConvert : Obligations.EveryWordSelectsConvert := by
  refine fun word => ⟨rfl, fun r => r.selects_iff word, rfl, rfl, (afterConvert_iff word _).mpr ?_⟩
  rw [settled_wires, invocation_z, Option.some_inj, decide_eq_decide, ← not_nonZeroPath_iff_word, nonZeroPath_iff, not_not]

/-- Settles O40: the invocation is evaluated on each word. -/
theorem hazardInputsGiveTheRightResults : Obligations.HazardInputsGiveTheRightResults := by
  simp only [Obligations.HazardInputsGiveTheRightResults, afterConvert_iff]
  decide

end Sys2Proof.Proofs
end

section
/-! The proofs of the family 'other', fourth part: steps, the ports in every state, and the host's runs on one copy and on many
(10_state.md section 1, 60_exceptions.md section 6, 70_reset_and_hazards.md section 5). -/

namespace Sys2Proof.Machine

open Sys2Proof.Safety

/-! ## Every instruction completes, and reads nothing of the state but the word on the port -/

theorem exec_completes (i : Instr) (st : State) : Completes (exec i st) := by
  by_cases h : i.row = .convert
  · cases i with
    | convert value => exact ⟨settled value, exec_convert st value⟩
    | _ => cases h
  · obtain ⟨b, hb⟩ := exec_stage h
    exact ⟨st.setBench b, hb st⟩

theorem exec_congr (i : Instr) {s t : State} (hv : s.value_i = t.value_i) : exec i s = exec i t := by
  by_cases h : i.row = .convert
  · cases i with
    | convert value => rw [exec_convert, exec_convert]
    | _ => cases h
  · obtain ⟨b, hb⟩ := exec_stage h
    rw [hb, hb, State.ext_of_ports (s := s.setBench b) (t := t.setBench b) hv rfl]

/-! ## A run on one copy (70_reset_and_hazards.md R91) -/

/-- The state a run ends in: that of its last word, or the first state if there is no word. -/
def lastState (words : List Word) (st : State) : State := words.foldl (fun _ value => settled value) st

theorem lastState_append_singleton (words : List Word) (value : Word) (st : State) :
    lastState (words ++ [value]) st = settled value := List.foldl_concat ..

theorem runHost_eq (words : List Word) (st : State) :
    runHost words st = .next (lastState words st, words.map fun value => (value, convert value)) := by
  induction words generalizing st with
  | nil => rfl
  | cons value rest ih => exact runHost_cons (ih (settled value))

/-! ## Uses of a pool (60_exceptions.md R79) -/

/-- The pool after some uses: each copy that was used is settled on the word of its last use. -/
def poolAfter (uses : List Use) (pool : List State) : List State :=
  uses.foldl (fun pool u => pool.set u.copy (settled u.word)) pool

theorem length_poolAfter (uses : List Use) (pool : List State) : (poolAfter uses pool).length = pool.length := by
  induction uses generalizing pool with
  | nil => rfl
  | cons u rest ih => exact (ih _).trans (List.length_set ..)

theorem poolAfter_getElem?_of_unused {uses : List Use} {c : ℕ} (h : ∀ u ∈ uses, u.copy ≠ c) (pool : List State) :
    (poolAfter uses pool)[c]? = pool[c]? := by
  induction uses generalizing pool with
  | nil => rfl
  | cons u rest ih =>
    obtain ⟨hu, hrest⟩ := List.forall_mem_cons.mp h
    exact (ih hrest _).trans (List.getElem?_set_ne hu)

theorem runPool_eq {uses : List Use} {pool : List State} (h : ∀ u ∈ uses, u.copy < pool.length) :
    runPool uses pool = .next (poolAfter uses pool, uses.map fun u => (u, convert u.word)) := by
  induction uses generalizing pool with
  | nil => rfl
  | cons u rest ih =>
    obtain ⟨hu, hrest⟩ := List.forall_mem_cons.mp h
    exact runPool_cons hu (ih (by rwa [List.length_set]))

end Sys2Proof.Machine

namespace Sys2Proof.Proofs

open Sys2Proof.Machine Sys2Proof.Safety

/-- Settles O33: the state enters an answer through the word on the port alone, and a run pairs each word with its result. -/
theorem noHiddenState : Obligations.NoHiddenState := by
  refine ⟨fun value s t => (exec_convert s value).trans (exec_convert t value).symm, fun s t hv => ?_,
    fun i s t hv => exec_congr i hv, fun value between st => ⟨_, _, convert value, runHost_eq _ st, rfl, ?_, ?_⟩⟩
  · rw [step_eq_settled, step_eq_settled, hv]
  · rw [← List.cons_append, List.map_append]
    exact List.getLast?_concat
  · simp

/-- Settles O36: the run of all the words, and its last state by whether the list has a last word. -/
theorem hostRunConvertsEveryWord : Obligations.HostRunConvertsEveryWord := by
  refine fun words st => ⟨_, _, runHost_eq words st, ?_, fun p hp => ?_, fun value hlast => ?_, ?_⟩
  · simp [Function.comp_def]
  · obtain ⟨value, -, rfl⟩ := List.mem_map.mp hp
    exact (afterConvert_iff value _).mpr rfl
  · obtain ⟨front, rfl⟩ := List.getLast?_eq_some_iff.mp hlast
    rw [lastState_append_singleton, exec_convert]
  · rintro rfl
    rfl

/-- Settles O35: each observation depends on its own use, so reordering the uses reorders the observations. -/
theorem copiesAndOrderDoNotMatter : Obligations.CopiesAndOrderDoNotMatter := by
  refine fun uses pool h => ⟨convert, poolAfter uses pool, fun value st => ⟨_, runHost_eq [value] st⟩, runPool_eq h,
    length_poolAfter uses pool, fun c hc => poolAfter_getElem?_of_unused hc pool, fun uses' hperm => ?_⟩
  have h' : ∀ u ∈ uses', u.copy < pool.length := fun u hu => h u (hperm.mem_iff.mp hu)
  exact ⟨_, _, runPool_eq h', hperm.map _⟩

/-- Settles O31: the decoder reads every word as CONVERT of it, and presenting a word leaves what CONVERT of it leaves. -/
theorem stepRunsTheDecodedWord : Obligations.StepRunsTheDecodedWord := by
  refine ⟨fun s i h => ?_, fun s => decodeBits_toNat s.value_i, fun s nbits w h => ?_⟩
  · rw [decodeBits_toNat] at h
    cases h
    rfl
  · exact ⟨_, decodeTableWord_of_le h w, rfl, rfl, rfl, (afterConvert_iff _ _).mpr rfl⟩

/-- Settles O32. -/
theorem nothingEverStops : Obligations.NothingEverStops :=
  ⟨exec_completes, fun s => ⟨_, step_eq_settled s⟩, fun ⟨f⟩ => nomatch f⟩

/-- Settles O34: a step leaves the settled state of the word on the port, and that state answers itself. -/
theorem sameWordAgainSameState : Obligations.SameWordAgainSameState := by
  intro s t h
  rw [step_eq_settled] at h
  cases h
  exact ⟨rfl, rfl, rfl, rfl⟩

/-- Settles O41: the functions are CONVERT's result and wires; a stage sets the bench and leaves the port. -/
theorem portsFollowTheWordAtEveryMoment : Obligations.PortsFollowTheWordAtEveryMoment := by
  refine ⟨convert, fun value => (invocation value).1, fun value => (afterConvert_iff value _).mpr ⟨rfl, rfl, rfl⟩,
    fun s => ⟨s.result_o_eq, s.wires_eq⟩, fun s v => ⟨s.present_result_o v, s.present_wires v⟩,
    fun s nbits w => s.present_result_o _, fun i s hi => ?_, State.reset.result_o_eq⟩
  obtain ⟨b, hb⟩ := exec_stage hi
  exact ⟨s.setBench b, hb s, s.setBench_result_o b⟩

end Sys2Proof.Proofs
end

section
/-! The proofs of the family 'other', fifth part: the stages in their wired order, what each touches, and which operands reach it
(10_state.md R11 and R13, 40_convert.md section 1, 41_extract_xor.md, 42_reconstruct.md). -/

namespace Sys2Proof.Machine

open Sys2Proof.Safety

/-! ## What a stage shows and what it works on (log 6) -/

/-- A stage answers with a bench on which only the wires of its row's `out` column can show anything. -/
theorem exec_stage_outs {i : Instr} (h : i.row ≠ .convert) :
    ∃ b : Bench, (∀ st : State, exec i st = .next (st.setBench b)) ∧
      ∀ n : WireName, b.read n ≠ none → n ∈ i.row.outs := by
  cases i with
  | convert _ => exact absurd rfl h
  | ztst doubled =>
    cases hz : zeroTest doubled with
    | true => exact ⟨_, fun st => exec_ztst_of_zero st hz, fun n => by cases n <;> simp [Bench.read, Instr.row, Row.outs]⟩
    | false => exact ⟨_, fun st => exec_ztst_of_nonzero st hz, fun n => by cases n <;> simp [Bench.read, Instr.row, Row.outs]⟩
  | _ => exact ⟨_, fun _ => rfl, fun n => by cases n <;> simp [Bench.read, Instr.row, Row.outs]⟩

theorem map_toNat_inj {n : ℕ} {x y : Option (BitVec n)} : x.map BitVec.toNat = y.map BitVec.toNat ↔ x = y :=
  (Option.map_injective fun _ _ => BitVec.eq_of_toNat_eq).eq_iff

theorem map_boolToNat_inj {x y : Option Bool} : x.map Bool.toNat = y.map Bool.toNat ↔ x = y :=
  (Option.map_injective (by decide : Function.Injective Bool.toNat)).eq_iff

/-- A stage's instruction is made from the wires of its `in` column, and from `z` after ZTST. -/
theorem stageInstr_congr {r : Row} {b c : Bench} (h : ∀ n ∈ WireName.z :: r.ins, c.read n = b.read n) (value : Word) :
    stageInstr r value c = stageInstr r value b := by
  have hz : c.wires.z = b.wires.z := map_boolToNat_inj.mp (h .z List.mem_cons_self)
  have hwhen : whenNotZero c = whenNotZero b := by
    funext i
    rw [whenNotZero, hz, whenNotZero]
  cases r with
  | convert => rfl
  | dbl => rfl
  | ztst => rw [stageInstr, map_toNat_inj.mp (h .doubled (by decide)), stageInstr]
  | xtr8 => rw [stageInstr, hwhen, map_toNat_inj.mp (h .doubled (by decide)), stageInstr]
  | xor80 => rw [stageInstr, hwhen, map_toNat_inj.mp (h .k0 (by decide)), stageInstr]
  | shr1 => rw [stageInstr, hwhen, map_toNat_inj.mp (h .k1 (by decide)), stageInstr]
  | sub82 => rw [stageInstr, hwhen, map_toNat_inj.mp (h .k2 (by decide)), stageInstr]
  | mrg8 =>
    rw [stageInstr, hwhen, map_toNat_inj.mp (h .doubled (by decide)), map_toNat_inj.mp (h .k3 (by decide)), stageInstr]
  | swap16 => rw [stageInstr, hwhen, map_toNat_inj.mp (h .w (by decide)), stageInstr]
  | shl7 => rw [stageInstr, hwhen, map_toNat_inj.mp (h .s (by decide)), stageInstr]
  | bitcast => rw [stageInstr, hwhen, map_toNat_inj.mp (h .x (by decide)), stageInstr]

/-! ## The stages of an invocation, in their wired order (10_state.md R13) -/

/-- The instructions of the stages after ZTST on a word outside the zero set. -/
def lateTrace (value : Word) : List Instr :=
  [.xtr8 (dbl value), .xor80 (xtr8 (dbl value)), .shr1 (xor80 (xtr8 (dbl value))),
   .sub82 (shr1 (xor80 (xtr8 (dbl value)))), .mrg8 (dbl value) (exponentByte value),
   .swap16 (mrg8 (dbl value) (exponentByte value)), .shl7 (swap16 (mrg8 (dbl value) (exponentByte value))),
   .bitcast (shl7 (swap16 (mrg8 (dbl value) (exponentByte value))))]

theorem runStages_cons {r : Row} {i : Instr} {rest : List Row} {st : State} {b c : Bench}
    (hi : stageInstr r st.value_i b = some i) (he : exec i st = .next (st.setBench c)) :
    runStages (r :: rest) st b = runStages rest (st.setBench c) (b.merge c) := by
  simp only [runStages, hi, he, State.setBench_bench]

theorem stageTrace_cons {r : Row} {i : Instr} {rest : List Row} {st : State} {b c : Bench}
    (hi : stageInstr r st.value_i b = some i) (he : exec i st = .next (st.setBench c)) :
    stageTrace (r :: rest) st b = i :: stageTrace rest (st.setBench c) (b.merge c) := by
  simp only [stageTrace, hi, he, State.setBench_bench]

theorem zeroTest_eq_true {value : Word} (h : ¬ NonZeroPath value) : zeroTest (dbl value) = true := by
  rw [zeroTest_eq_decide, dbl_eq_zero h, decide_eq_true rfl]

/-! Once ZTST has driven `z`, what the later stages take part with is evaluated. -/

section
variable {value : Word} (st : State)

theorem runStages_of_nonzero (h : NonZeroPath value) :
    runStages Row.wiredOrder (st.present value) Bench.idle = .next ⟨(invocation value).1, some (convert value)⟩ := by
  rw [Row.wiredOrder, runStages_cons rfl (exec_dbl _ value),
    runStages_cons rfl (exec_ztst_of_nonzero _ (zeroTest_eq_false h)), invocation_of_nonzero h, convert_of_nonzero h]
  exact congrArg (fun x => Host.Outcome.next (Bench.mk _ (some x))) (bitcast_eq _)

theorem runStages_of_zero (h : ¬ NonZeroPath value) :
    runStages Row.wiredOrder (st.present value) Bench.idle = .next ⟨(invocation value).1, some (convert value)⟩ := by
  rw [Row.wiredOrder, runStages_cons rfl (exec_dbl _ value),
    runStages_cons rfl (exec_ztst_of_zero _ (zeroTest_eq_true h)), invocation_of_zero h, convert_of_zero h, dbl_eq_zero h]
  rfl

theorem stageTrace_of_nonzero (h : NonZeroPath value) :
    stageTrace Row.wiredOrder (st.present value) Bench.idle = .dbl value :: .ztst (dbl value) :: lateTrace value := by
  rw [Row.wiredOrder, stageTrace_cons rfl (exec_dbl _ value),
    stageTrace_cons rfl (exec_ztst_of_nonzero _ (zeroTest_eq_false h))]
  rfl

theorem stageTrace_of_zero (h : ¬ NonZeroPath value) :
    stageTrace Row.wiredOrder (st.present value) Bench.idle = [.dbl value, .ztst (dbl value)] := by
  rw [Row.wiredOrder, stageTrace_cons rfl (exec_dbl _ value),
    stageTrace_cons rfl (exec_ztst_of_zero _ (zeroTest_eq_true h))]
  rfl

end

/-- The stage instructions that invocations carry out (95_test_vectors.md section 4.1). -/
theorem exists_mem_stageTrace_iff (i : Instr) :
    (∃ (value : Word) (st : State), i ∈ stageTrace Row.wiredOrder (st.present value) Bench.idle) ↔
      ∃ value : Word, i = .dbl value ∨ i = .ztst (dbl value) ∨ NonZeroPath value ∧ i ∈ lateTrace value := by
  have : Nonempty State := ⟨State.reset⟩
  refine exists_congr fun value => ?_
  by_cases h : NonZeroPath value
  · simp only [stageTrace_of_nonzero _ h, List.mem_cons, h, true_and, exists_const]
  · simp only [stageTrace_of_zero _ h, List.mem_cons, h, false_and, exists_const, List.not_mem_nil]

/-! ## The operands that occur at each stage (40_convert.md section 2, 41_extract_xor.md, 42_reconstruct.md) -/

theorem append_eq_append_iff {n m : ℕ} {x x' : BitVec n} {y y' : BitVec m} : x ++ y = x' ++ y' ↔ x = x' ∧ y = y' := by
  refine ⟨fun h => ⟨?_, ?_⟩, fun ⟨hx, hy⟩ => by rw [hx, hy]⟩
  · rw [← extract_append_high x y, h, extract_append_high]
  · rw [← extract_append_low x y, h, extract_append_low]

theorem getLsbD_zero_eq_false_iff {n : ℕ} (x : BitVec (n + 1)) : x.getLsbD 0 = false ↔ x = x.extractLsb' 1 n ++ 0#1 := by
  constructor
  · intro h
    apply eq_of_bits
    intro i hi
    rw [BitVec.getLsbD_append]
    cases i with
    | zero => exact h
    | succ j => rw [if_neg (by omega), getLsbD_extract _ (by omega), Nat.add_sub_cancel, Nat.add_comm 1 j]
  · intro h
    rw [h, append_zero_getLsbD_zero]

theorem inContext_ztst_iff (doubled : Word) :
    (Instr.ztst doubled).inContext = true ↔ ∃ value : Word, doubled = dbl value := by
  rw [Instr.inContext, Bool.not_eq_true', getLsbD_zero_eq_false_iff (n := 31)]
  constructor
  · intro h
    refine ⟨0#1 ++ doubled.extractLsb' 1 31, ?_⟩
    rw [dbl_eq_append, extract_append_low]
    exact h
  · rintro ⟨value, rfl⟩
    rw [dbl_extract_high]
    exact dbl_eq_append value

theorem inContext_xtr8_iff (doubled : Word) :
    (Instr.xtr8 doubled).inContext = true ↔ ∃ value : Word, NonZeroPath value ∧ doubled = dbl value := by
  have hsplit : (Instr.xtr8 doubled).inContext = ((Instr.ztst doubled).inContext && doubled != 0) := rfl
  rw [hsplit, Bool.and_eq_true, inContext_ztst_iff, bne_iff_ne]
  constructor
  · rintro ⟨⟨value, rfl⟩, hne⟩
    exact ⟨value, (nonZeroPath_iff value).mpr hne, rfl⟩
  · rintro ⟨value, h, rfl⟩
    exact ⟨⟨value, rfl⟩, (nonZeroPath_iff value).mp h⟩

theorem inContext_xor80_iff (k0 : Byte) :
    (Instr.xor80 k0).inContext = true ↔ ∃ value : Word, NonZeroPath value ∧ k0 = xtr8 (dbl value) := by
  rw [Instr.inContext, Bool.not_eq_true']
  constructor
  · intro h
    obtain ⟨value, hn, he⟩ := exists_nonZeroPath_with_field (k0.extractLsb' 1 7)
    refine ⟨value, hn, ?_⟩
    rw [k0_wire_eq, he]
    exact (getLsbD_zero_eq_false_iff (n := 7) k0).mp h
  · rintro ⟨value, -, rfl⟩
    rw [k0_wire_eq, append_zero_getLsbD_zero]

theorem inContext_shr1_iff (k1 : Byte) :
    (Instr.shr1 k1).inContext = true ↔ ∃ value : Word, NonZeroPath value ∧ k1 = xor80 (xtr8 (dbl value)) := by
  rw [Instr.inContext, Bool.not_eq_true']
  constructor
  · intro h
    obtain ⟨value, hn, he⟩ := exists_nonZeroPath_with_field (k1.extractLsb' 1 7 ^^^ 0x40#7)
    refine ⟨value, hn, ?_⟩
    rw [k1_wire_eq, he, BitVec.xor_assoc, BitVec.xor_self, BitVec.xor_zero]
    exact (getLsbD_zero_eq_false_iff (n := 7) k1).mp h
  · rintro ⟨value, -, rfl⟩
    rw [k1_wire_eq, append_zero_getLsbD_zero]

theorem inContext_sub82_iff (k2 : Byte) :
    (Instr.sub82 k2).inContext = true ↔ ∃ value : Word, NonZeroPath value ∧ k2 = shr1 (xor80 (xtr8 (dbl value))) := by
  rw [Instr.inContext, decide_eq_true_iff]
  constructor
  · intro h
    have hle : k2.toNat ≤ 127 := h
    obtain ⟨value, hn, he⟩ := exists_nonZeroPath_with_field (k2.setWidth 7 ^^^ 0x40#7)
    refine ⟨value, hn, ?_⟩
    rw [k2_wire_eq, he, BitVec.xor_assoc, BitVec.xor_self, BitVec.xor_zero]
    apply BitVec.eq_of_toNat_eq
    rw [BitVec.toNat_setWidth_of_le (by decide), BitVec.toNat_setWidth]
    exact (Nat.mod_eq_of_lt (Nat.lt_succ_of_le hle)).symm
  · rintro ⟨value, -, rfl⟩
    exact shr1_le _

theorem exponentOfDoubled_dbl (value : Word) : exponentOfDoubled (dbl value) = exponentByte value := by
  have hfield : (dbl value).extractLsb' 1 7 = value.extractLsb' 0 7 := by
    rw [dbl_eq_append, extract_append_within_high _ _ (by decide)]
    exact extract_extract value 0 31 0 7 (by decide)
  rw [exponentOfDoubled, hfield, exponentByte_eq, BitVec.setWidth_xor]
  rfl

theorem inContext_mrg8_iff (doubled : Word) (k3 : Byte) :
    (Instr.mrg8 doubled k3).inContext = true ↔
      ∃ value : Word, NonZeroPath value ∧ doubled = dbl value ∧ k3 = exponentByte value := by
  have hsplit : (Instr.mrg8 doubled k3).inContext =
      ((Instr.xtr8 doubled).inContext && k3 == exponentOfDoubled doubled) := rfl
  rw [hsplit, Bool.and_eq_true, inContext_xtr8_iff, beq_iff_eq]
  constructor
  · rintro ⟨⟨value, hn, rfl⟩, hk3⟩
    exact ⟨value, hn, rfl, hk3.trans (exponentOfDoubled_dbl value)⟩
  · rintro ⟨value, hn, rfl, rfl⟩
    exact ⟨⟨value, hn, rfl⟩, (exponentOfDoubled_dbl value).symm⟩

/-- `0x000000BE` is what MRG8 would make of a zero word (40_convert.md R43). -/
theorem w_wire_eq_be_iff (value : Word) :
    value.extractLsb' 7 24 ++ exponentByte value = 0x000000BE#32 ↔ ¬ NonZeroPath value := by
  have hbyte : exponentByte value = 0xBE#8 ↔ value.extractLsb' 0 7 = 0 := exponentByte_inj value 0x00000000#32
  have hword : value.extractLsb' 0 31 = value.extractLsb' 7 24 ++ value.extractLsb' 0 7 :=
    (BitVec.extractLsb'_append_extractLsb'_eq_extractLsb' (show 7 = 0 + 7 from rfl)).symm
  have hsplit : (0x000000BE#32 : Word) = 0#24 ++ 0xBE#8 := rfl
  have hzero : (0 : BitVec 31) = 0#24 ++ 0#7 := rfl
  rw [not_nonZeroPath_iff, hword, hsplit, hzero, append_eq_append_iff, append_eq_append_iff, hbyte]
  rfl

theorem inContext_swap16_iff (w : Word) :
    (Instr.swap16 w).inContext = true ↔
      ∃ value : Word, NonZeroPath value ∧ w = mrg8 (dbl value) (exponentByte value) := by
  simp only [Instr.inContext, Bool.and_eq_true, decide_eq_true_iff, bne_iff_ne, w_wire_eq]
  constructor
  · rintro ⟨⟨hlow, hhigh⟩, hne⟩
    obtain ⟨value, hu, he⟩ := exists_word (w.extractLsb' 8 24) (exponentFieldOf (w.extractLsb' 0 8))
    have hw : w = value.extractLsb' 7 24 ++ exponentByte value := by
      rw [hu, exponentByte_eq_of_field hlow hhigh he]
      exact (BitVec.extractLsb'_append_extractLsb' (w := 24) (len := 8)).symm
    exact ⟨value, by_contra fun hz => hne (hw.trans ((w_wire_eq_be_iff value).mpr hz)), hw⟩
  · rintro ⟨value, hn, rfl⟩
    rw [extract_append_low]
    exact ⟨exponentByte_bounds value, fun hbe => (w_wire_eq_be_iff value).mp hbe hn⟩

theorem inContext_shl7_eq (s : Word) : (Instr.shl7 s).inContext = (Instr.swap16 (swap16 s)).inContext := by
  have hbyte : (swap16 s).extractLsb' 0 8 = s.extractLsb' 16 8 := by
    rw [swap16_eq_append, extract_append_within_low _ _ (by decide)]
    exact extract_extract s 16 16 0 8 (by decide)
  have hne : swap16 s = 0x000000BE#32 ↔ s = 0x00BE0000#32 := by
    constructor
    · intro h
      rw [← swap16_swap16 s, h]
      rfl
    · rintro rfl
      rfl
  simp only [Instr.inContext, hbyte, bne, beq_eq_decide, hne]

theorem inContext_shl7_iff (s : Word) :
    (Instr.shl7 s).inContext = true ↔
      ∃ value : Word, NonZeroPath value ∧ s = swap16 (mrg8 (dbl value) (exponentByte value)) := by
  rw [inContext_shl7_eq, inContext_swap16_iff]
  refine exists_congr fun value => and_congr_right fun _ => ?_
  constructor
  · intro h
    rw [← h, swap16_swap16]
  · rintro rfl
    rw [swap16_swap16]

theorem inContext_bitcast_iff (x : Word) :
    (Instr.bitcast x).inContext = true ↔
      ∃ value : Word, NonZeroPath value ∧ x = shl7 (swap16 (mrg8 (dbl value) (exponentByte value))) := by
  simp only [Instr.inContext, Bool.and_eq_true, decide_eq_true_iff, beq_iff_eq]
  constructor
  · rintro ⟨⟨hlow, hhigh⟩, h7⟩
    have hn := nonZeroPath_markedWord (x.extractLsb' 31 1, x.extractLsb' 7 16, exponentFieldOf (x.extractLsb' 23 8))
    refine ⟨_, hn, ?_⟩
    rw [x_wire_eq, exponentByte_eq_of_field hlow hhigh (SourceFields.toWord_extract_e _), markedWord,
      SourceFields.toWord_extract_s, SourceFields.toWord_extract_m]
    have hsplit : x = x.extractLsb' 31 1 ++ x.extractLsb' 23 8 ++ x.extractLsb' 7 16 ++ x.extractLsb' 0 7 := by
      rw [BitVec.extractLsb'_append_extractLsb'_eq_extractLsb' (show 31 = 23 + 8 from rfl),
        BitVec.extractLsb'_append_extractLsb'_eq_extractLsb' (show 23 = 7 + 16 from rfl),
        BitVec.extractLsb'_append_extractLsb'_eq_extractLsb' (show 7 = 0 + 7 from rfl)]
      exact BitVec.extractLsb'_eq_self.symm
    rw [h7] at hsplit
    exact hsplit
  · rintro ⟨value, hn, rfl⟩
    rw [← convert_of_nonzero hn, convert_extract_exponent hn]
    exact ⟨exponentByte_bounds value, convert_extract_low hn⟩

end Sys2Proof.Machine

namespace Sys2Proof.Proofs

open Sys2Proof.Machine Sys2Proof.Safety

/-- Settles O11: a stage answers with the bench set to what its row drives, and takes its operands from the wires of its row. -/
theorem stagesTouchOnlyTheirWires : Obligations.StagesTouchOnlyTheirWires := by
  refine ⟨fun i st hi => ?_, fun r value b c h => stageInstr_congr h value⟩
  obtain ⟨b, hb, houts⟩ := exec_stage_outs hi
  exact ⟨st.setBench b, hb st, rfl, rfl, rfl, fun n hn => by_contra fun hne => hn (houts n hne)⟩

/-- Settles O13: on the non-zero path the wires driven one by one are the invocation's; on the other ZTST ends it. -/
theorem convertIsTheStagesInWiredOrder : Obligations.ConvertIsTheStagesInWiredOrder := by
  refine fun value st => ⟨settled value, exec_convert st value, ?_⟩
  split_ifs with hz
  · have h : ¬ NonZeroPath value := not_not.mpr hz
    exact ⟨runStages_of_zero st h, by rw [stageTrace_of_zero st h]; rfl⟩
  · exact ⟨runStages_of_nonzero st hz, by rw [stageTrace_of_nonzero st hz]; rfl⟩

/-- Settles O30: stage by stage, the operands the check accepts are those a word outside the zero set sends there. -/
theorem inContextIsWhatInvocationsReach : Obligations.InContextIsWhatInvocationsReach := by
  intro i hi
  rw [exists_mem_stageTrace_iff]
  cases i with
  | convert value => exact absurd rfl hi
  | dbl value => simp [Instr.inContext]
  | ztst doubled => simp [inContext_ztst_iff, lateTrace]
  | xtr8 doubled => simp [inContext_xtr8_iff, lateTrace]
  | xor80 k0 => simp [inContext_xor80_iff, lateTrace]
  | shr1 k1 => simp [inContext_shr1_iff, lateTrace]
  | sub82 k2 => simp [inContext_sub82_iff, lateTrace]
  | mrg8 doubled k3 => simp [inContext_mrg8_iff, lateTrace]
  | swap16 w => simp [inContext_swap16_iff, lateTrace]
  | shl7 s => simp [inContext_shl7_iff, lateTrace]
  | bitcast x => simp [inContext_bitcast_iff, lateTrace]

end Sys2Proof.Proofs
end
